-- ==== Sys2Proof/Word.lean ====
section
/-! DEFINITION. The bit-vector types of the encoder and the Pixel (00_scope.md R10, R11). -/

namespace Sys2Proof

/-- A byte of 8 bits (00_scope.md R10); also one channel of a pixel (R11). -/
abbrev Byte := BitVec 8

/-- A 32-bit image dimension (10_state.md R31). -/
abbrev Dim := BitVec 32

/-- A slot number of the running cache, and the value of `HASH`: 6 bits (10_state.md R24, 40_hash_cache.md R110). -/
abbrev Slot := BitVec 6

/-- A Pixel: "four independent 8-bit unsigned channels", compared and copied by value (00_scope.md R11). -/
structure Pixel where
  r : Byte
  g : Byte
  b : Byte
  a : Byte
  deriving DecidableEq, Repr

end Sys2Proof
end

