-- ==== Sys2Proof/Config.lean ====
section
/-! DEFINITION. The constants of the block (00_scope.md R8). None is configurable and none is a free value:
the block has no source of non-determinism (R19). -/

namespace Sys2Proof.Config

open Sys2Proof

/-- `PREV_INIT`: the previous pixel at encode start. -/
abbrev prevInit : Pixel := ⟨0, 0, 0, 255⟩

/-- `CACHE_INIT`: what every cache slot holds at encode start. -/
abbrev cacheInitPixel : Pixel := ⟨0, 0, 0, 0⟩

/-- `RUN_MAX`: the largest run length of one RUN record. -/
abbrev runMax : Nat := 62

/-- `DIFF_LO`, `DIFF_HI`: the window of the small-delta strategy. -/
abbrev diffLo : Int := -2
abbrev diffHi : Int := 1

/-- `LUMA_G_LO`, `LUMA_G_HI`: the window of the green delta of the luma strategy. -/
abbrev lumaGLo : Int := -32
abbrev lumaGHi : Int := 31

/-- `LUMA_RB_LO`, `LUMA_RB_HI`: the window of the red and blue deltas relative to green. -/
abbrev lumaRBLo : Int := -8
abbrev lumaRBHi : Int := 7

/-- `DIFF_BIAS`, `LUMA_G_BIAS`, `LUMA_RB_BIAS`: added to a delta before it is packed (30_encoding.md R93). -/
abbrev diffBias : Int := 2
abbrev lumaGBias : Int := 32
abbrev lumaRBBias : Int := 8

/-- `TAG_INDEX`, `TAG_DIFF`, `TAG_LUMA`, `TAG_RUN` in bits 7:6 of a leading byte (30_encoding.md R81). -/
abbrev tagIndex : Byte := 0x00
abbrev tagDiff : Byte := 0x40
abbrev tagLuma : Byte := 0x80
abbrev tagRun : Byte := 0xC0

/-- `TAG_RGB`, `TAG_RGBA`: the full-pixel escape bytes (30_encoding.md R81). -/
abbrev tagRgb : Byte := 0xFE
abbrev tagRgba : Byte := 0xFF

/-- `MAGIC`: header bytes 0..3, ASCII `q`, `o`, `i`, `f`. The codes are the ASCII standard's, supplied by the spec from
general knowledge (93_implementation_defined.md G3). PRESUMED, unsafe: notes/assumptions/13.md. -/
abbrev magic : List Byte := [0x71, 0x6F, 0x69, 0x66]

/-- `CHANNELS_BYTE`, `COLORSPACE_BYTE`: header bytes 12 and 13 (44_framing.md R187). -/
abbrev channelsByte : Byte := 0x04
abbrev colorspaceByte : Byte := 0x00

/-- `FOOTER`: seven `0x00` and one `0x01` (30_encoding.md R92). -/
abbrev footer : List Byte := [0x00, 0x00, 0x00, 0x00, 0x00, 0x00, 0x00, 0x01]

/-- `HEADER_SIZE`, `FOOTER_SIZE`, `MAX_RECORD`. -/
abbrev headerSize : Nat := 14
abbrev footerSize : Nat := 8
abbrev maxRecord : Nat := 5

/-- `CAP_MIN` for `n = W * H` pixels: the least output capacity (44_framing.md R191), over the natural numbers (R9). -/
abbrev capMin (n : Nat) : Nat := 5 * n + 22

end Sys2Proof.Config
end

