-- ==== Sys2Proof/Syntax.lean ====
section
/-! DEFINITION. The eight things the block can write (30_encoding.md R80): one constructor per row of
spec/opcode_table.json, with the operands as numbers, before any bias (R93). -/

namespace Sys2Proof

/-- The "instruction set" of the block (00_scope.md R2): six record kinds and two frame writers. -/
inductive Instr where
  /-- INDEX `k` (30_encoding.md R85). -/
  | index (k : Slot)
  /-- DIFF `dr, dg, db`, signed (R86). -/
  | diff (dr dg db : Int)
  /-- LUMA `dg, dr_dg, db_dg`, signed (R87). -/
  | luma (dg drdg dbdg : Int)
  /-- RUN `n` (R88). -/
  | run (n : Nat)
  /-- RGB `r, g, b` (R89). -/
  | rgb (r g b : Byte)
  /-- RGBA `r, g, b, a` (R90). -/
  | rgba (r g b a : Byte)
  /-- HEADER `w, h` (R91). -/
  | header (w h : Dim)
  /-- FOOTER (R92). -/
  | footer
  deriving DecidableEq, Repr

/-- The part of the output container a byte stands in. Frames have no tag of their own and are told from records
only by position (30_encoding.md R96, R97). -/
inductive StreamPart where
  | header
  | records
  | footer
  deriving DecidableEq, Repr

/-- Where an instruction's bytes stand in the container (20_memory.md R62, R63). -/
def Instr.part : Instr → StreamPart
  | .header _ _ => .header
  | .footer => .footer
  | .index _ => .records
  | .diff _ _ _ => .records
  | .luma _ _ _ => .records
  | .run _ => .records
  | .rgb _ _ _ => .records
  | .rgba _ _ _ _ => .records

/-- The length in bytes (30_encoding.md R80). -/
def Instr.size : Instr → Nat
  | .index _ => 1
  | .diff _ _ _ => 1
  | .luma _ _ _ => 2
  | .run _ => 1
  | .rgb _ _ _ => 4
  | .rgba _ _ _ _ => 5
  | .header _ _ => 14
  | .footer => 8

end Sys2Proof
end

