-- ==== Sys2Proof/WellFormed.lean ====
section
/-! DEFINITION. The operand ranges of the encodings (30_encoding.md R85 to R93). The operands of INDEX, RGB, RGBA and
HEADER are in range by their types. -/

namespace Sys2Proof

/-- A signed operand lies in a closed window. -/
def inWindow (lo hi d : Int) : Bool := decide (lo ≤ d) && decide (d ≤ hi)

/-- Every operand is in the range its encoding gives it: DIFF -2..+1 (R86), LUMA -32..+31 and -8..+7 (R87),
RUN 1..62 (R84, R88). -/
def Instr.wf : Instr → Bool
  | .index _ => true
  | .diff dr dg db =>
    inWindow Config.diffLo Config.diffHi dr && inWindow Config.diffLo Config.diffHi dg
      && inWindow Config.diffLo Config.diffHi db
  | .luma dg drdg dbdg =>
    inWindow Config.lumaGLo Config.lumaGHi dg && inWindow Config.lumaRBLo Config.lumaRBHi drdg
      && inWindow Config.lumaRBLo Config.lumaRBHi dbdg
  | .run n => decide (1 ≤ n) && decide (n ≤ Config.runMax)
  | .rgb _ _ _ => true
  | .rgba _ _ _ _ => true
  | .header _ _ => true
  | .footer => true

end Sys2Proof
end

