-- ==== Sys2Proof/Decode.lean ====
section
/-! DEFINITION. The bytes of the eight records and frames (30_encoding.md): the decoder, total on any byte list and
rejecting by name (R100, R96), and the encoder (R85 to R92), each byte built with explicit shifts and ors (70_reset_and_hazards.md
R249). -/

namespace Sys2Proof

/-! ### Decoding -/

/-- Why a byte list is no instruction of the container part it stands in. Every leading byte of a record is assigned
(30_encoding.md R94), so a record is rejected only for want of bytes. -/
inductive DecodeError where
  /-- The list ends before the record or frame does. -/
  | truncated
  /-- Header bytes 0..3 are not `qoif` (R91). -/
  | badMagic
  /-- Header byte 12 is not 4 (R91, 44_framing.md R187). -/
  | badChannels
  /-- Header byte 13 is not 0 (R91, 44_framing.md R187). -/
  | badColorspace
  /-- The eight bytes are not the footer (R92). -/
  | badFooter
  deriving DecidableEq, Repr

/-- The field `b[hi:lo]` of a byte as an unsigned number, `n` bits wide from bit `lo` (00_scope.md R10). -/
def byteField (b : Byte) (lo n : Nat) : Nat := ((b >>> lo) &&& BitVec.ofNat 8 (2 ^ n - 1)).toNat

/-- One record, from its leading byte: the order of tests of 30_encoding.md R100, the two 8-bit tags first. -/
def decodeRecord : List Byte → Except DecodeError (Instr × List Byte)
  | [] => .error .truncated
  | b :: rest =>
    if b = Config.tagRgb then
      match rest with
      | r :: g :: bl :: rest' => .ok (.rgb r g bl, rest')
      | _ => .error .truncated
    else if b = Config.tagRgba then
      match rest with
      | r :: g :: bl :: a :: rest' => .ok (.rgba r g bl a, rest')
      | _ => .error .truncated
    else if b &&& 0xC0 = Config.tagIndex then
      .ok (.index (BitVec.ofNat 6 (byteField b 0 6)), rest)
    else if b &&& 0xC0 = Config.tagDiff then
      .ok (.diff ((byteField b 4 2 : Int) - Config.diffBias) ((byteField b 2 2 : Int) - Config.diffBias)
        ((byteField b 0 2 : Int) - Config.diffBias), rest)
    else if b &&& 0xC0 = Config.tagLuma then
      match rest with
      | c :: rest' =>
        .ok (.luma ((byteField b 0 6 : Int) - Config.lumaGBias) ((byteField c 4 4 : Int) - Config.lumaRBBias)
          ((byteField c 0 4 : Int) - Config.lumaRBBias), rest')
      | _ => .error .truncated
    else
      .ok (.run (byteField b 0 6 + 1), rest)

/-- Four bytes, most significant first, as a 32-bit number (20_memory.md R56). -/
def be32Value (b3 b2 b1 b0 : Byte) : Dim := b3 ++ b2 ++ b1 ++ b0

/-- The 14-byte header (30_encoding.md R91). -/
def decodeHeader : List Byte → Except DecodeError (Instr × List Byte)
  | m0 :: m1 :: m2 :: m3 :: w3 :: w2 :: w1 :: w0 :: h3 :: h2 :: h1 :: h0 :: c :: s :: rest =>
    if [m0, m1, m2, m3] ≠ Config.magic then .error .badMagic
    else if c ≠ Config.channelsByte then .error .badChannels
    else if s ≠ Config.colorspaceByte then .error .badColorspace
    else .ok (.header (be32Value w3 w2 w1 w0) (be32Value h3 h2 h1 h0), rest)
  | _ => .error .truncated

/-- The 8-byte footer (30_encoding.md R92). -/
def decodeFooter : List Byte → Except DecodeError (Instr × List Byte)
  | f0 :: f1 :: f2 :: f3 :: f4 :: f5 :: f6 :: f7 :: rest =>
    if [f0, f1, f2, f3, f4, f5, f6, f7] = Config.footer then .ok (.footer, rest) else .error .badFooter
  | _ => .error .truncated

/-- The instruction at the head of a byte list that stands in the given part of the container, and the bytes after it. -/
def decode : StreamPart → List Byte → Except DecodeError (Instr × List Byte)
  | .header, bs => decodeHeader bs
  | .records, bs => decodeRecord bs
  | .footer, bs => decodeFooter bs

/-! ### Encoding -/

/-- `v[8*(n-k)-1 : 8*(n-k-1)]` for `k = 0 .. n-1`: the `n` bytes of `v`, most significant first (00_scope.md R13). -/
def beBytes : Nat → Nat → List Byte
  | 0, _ => []
  | n + 1, v => BitVec.ofNat 8 (v >>> (8 * n)) :: beBytes n v

/-- The bytes `WriteBE32` emits: `v[31:24]`, `v[23:16]`, `v[15:8]`, `v[7:0]` (44_framing.md R186). -/
def be32Bytes (v : Dim) : List Byte :=
  [v.extractLsb' 24 8, v.extractLsb' 16 8, v.extractLsb' 8 8, v.extractLsb' 0 8]

/-- `0x00 | k` (30_encoding.md R85). -/
def indexByte (k : Slot) : Byte := Config.tagIndex ||| k.setWidth 8

/-- `0x40 | ((dr + 2) << 4) | ((dg + 2) << 2) | (db + 2)` (30_encoding.md R86). -/
def diffByte (dr dg db : Int) : Byte :=
  Config.tagDiff ||| (BitVec.ofInt 8 (dr + Config.diffBias) <<< 4) ||| (BitVec.ofInt 8 (dg + Config.diffBias) <<< 2)
    ||| BitVec.ofInt 8 (db + Config.diffBias)

/-- `0x80 | (dg + 32)` (30_encoding.md R87, byte 0). -/
def lumaByte0 (dg : Int) : Byte := Config.tagLuma ||| BitVec.ofInt 8 (dg + Config.lumaGBias)

/-- `((dr_dg + 8) << 4) | (db_dg + 8)` (30_encoding.md R87, byte 1). -/
def lumaByte1 (drdg dbdg : Int) : Byte :=
  (BitVec.ofInt 8 (drdg + Config.lumaRBBias) <<< 4) ||| BitVec.ofInt 8 (dbdg + Config.lumaRBBias)

/-- `0xC0 | (n - 1)` (30_encoding.md R88). -/
def runByte (n : Nat) : Byte := Config.tagRun ||| BitVec.ofNat 8 (n - 1)

/-- The words of an instruction, in order of offset (30_encoding.md R85 to R92). -/
def encode : Instr → List Byte
  | .index k => [indexByte k]
  | .diff dr dg db => [diffByte dr dg db]
  | .luma dg drdg dbdg => [lumaByte0 dg, lumaByte1 drdg dbdg]
  | .run n => [runByte n]
  | .rgb r g b => [Config.tagRgb, r, g, b]
  | .rgba r g b a => [Config.tagRgba, r, g, b, a]
  | .header w h => Config.magic ++ be32Bytes w ++ be32Bytes h ++ [Config.channelsByte, Config.colorspaceByte]
  | .footer => Config.footer

/-- The pseudo-instruction `RUNS m` (30_encoding.md R99): `m div 62` records `RUN 62`, then `RUN (m mod 62)` if that is
not zero. -/
def runs (m : Nat) : List Instr :=
  List.replicate (m / Config.runMax) (.run Config.runMax)
    ++ if m % Config.runMax = 0 then [] else [.run (m % Config.runMax)]

/-- One line of the assembler syntax of 30_encoding.md R98, operands in decimal. -/
def Instr.asm : Instr → String
  | .index k => "INDEX " ++ toString k.toNat
  | .diff dr dg db => "DIFF " ++ toString dr ++ ", " ++ toString dg ++ ", " ++ toString db
  | .luma dg drdg dbdg => "LUMA " ++ toString dg ++ ", " ++ toString drdg ++ ", " ++ toString dbdg
  | .run n => "RUN " ++ toString n
  | .rgb r g b => "RGB " ++ toString r.toNat ++ ", " ++ toString g.toNat ++ ", " ++ toString b.toNat
  | .rgba r g b a =>
    "RGBA " ++ toString r.toNat ++ ", " ++ toString g.toNat ++ ", " ++ toString b.toNat ++ ", " ++ toString a.toNat
  | .header w h => "HEADER " ++ toString w.toNat ++ ", " ++ toString h.toNat
  | .footer => "FOOTER"

/-! ### A row of spec/opcode_table.json -/

/-- The bytes of a row's word: spec/opcode_table.json reads a whole record as one number "with byte 0 as the most significant
byte" (30_encoding.md, conventions), so the word is stored most significant byte first. The zeros after it are the bits above
`nbits`, up to the longest instruction. DESIGN CHOICE: notes/assumptions/11.md. -/
def tableWordBytes (nbits w : Nat) : List Byte :=
  beBytes ((nbits + 7) / 8) w ++ List.replicate Config.headerSize 0

/-- The container part of a row by its length: 14 bytes is the header, 8 bytes the footer, every other length a record.
DESIGN CHOICE: notes/assumptions/11.md. -/
def tableWordPart (nbits : Nat) : StreamPart :=
  if nbits = 112 then .header else if nbits = 64 then .footer else .records

/-- The instruction the decoder reads from a row's word. -/
def decodeTableWord (nbits w : Nat) : Option Instr :=
  match decode (tableWordPart nbits) (tableWordBytes nbits w) with
  | .ok (i, _) => some i
  | .error _ => none

end Sys2Proof
end

