-- ==== Sys2Proof/Machine/State.lean ====
section
/-! DEFINITION. The state of the block (10_state.md R21) as plain data, the reasons a step can stop, and the state after
reset (R40, 70_reset_and_hazards.md R235). -/

namespace Sys2Proof.Machine

/-- The sequencing register (10_state.md R28). -/
inductive Phase where
  | idle
  | header
  | pixels
  | flush
  | footer
  | done
  | failed
  deriving DecidableEq, Repr

/-- "`phase` in (HEADER, PIXELS, FLUSH, FOOTER) is called busy" (10_state.md R28). -/
def Phase.busy : Phase → Bool
  | .idle => false
  | .header => true
  | .pixels => true
  | .flush => true
  | .footer => true
  | .done => false
  | .failed => false

/-- The outcome register (10_state.md R30). -/
inductive Status where
  | ok
  | errCapacity
  | errInputLength
  deriving DecidableEq, Repr

/-- The codes the host reads (10_state.md R30, 60_exceptions.md R210). -/
def Status.code : Status → Nat
  | .ok => 0
  | .errCapacity => 1
  | .errInputLength => 2

/-- The two errors, both raised by START and nowhere else (60_exceptions.md R210). -/
inductive EncodeError where
  | capacity
  | inputLength
  deriving DecidableEq, Repr

/-- What `status` becomes when an error is raised (60_exceptions.md R210, R214). -/
def EncodeError.status : EncodeError → Status
  | .capacity => .errCapacity
  | .inputLength => .errInputLength

/-- The running cache: exactly 64 Pixel slots (10_state.md R24). -/
abbrev Cache := Vector Pixel 64

/-- The output space OUT as the bytes that have been written, by offset (20_memory.md R53). -/
abbrev Memory := List Host.Cell

/-- The inputs of START (44_framing.md R192): `W_in`, `H_in`, the pixel sequence with the length the host claims for it, and
the capacity. `npix` is an input of its own (10_state.md R32); the host's duty is `npix = pix.length` (60_exceptions.md R223). -/
structure StartInputs where
  w : Dim
  h : Dim
  npix : Nat
  cap : Nat
  pix : List Pixel
  deriving DecidableEq, Repr

/-- A move of the host (44_framing.md R203, 70_reset_and_hazards.md R235). The sequence of moves is the model's own:
DESIGN CHOICE, notes/assumptions/2.md. -/
inductive HostMove where
  /-- START; while the block is busy it waits, since the host has no such move then (R243), and every move behind it waits
  with it. -/
  | start (i : StartInputs)
  /-- Reset; as the first of the queue it is taken in any phase (R235). -/
  | reset
  /-- The host does nothing for one step. -/
  | wait
  deriving DecidableEq, Repr

/-- Everything the spec gives the machine (10_state.md R21), and the host's moves to come. -/
structure State where
  /-- The previous-pixel register (R22). -/
  prev : Pixel
  /-- The run counter, 6 bits (R23). -/
  run : BitVec 6
  /-- The running cache (R24). -/
  cache : Cache
  /-- The index of the next input pixel (R26). -/
  pos : Nat
  /-- The output write pointer and logical length (R29). -/
  len : Nat
  /-- The sequencing register (R28). -/
  phase : Phase
  /-- The outcome register (R30). -/
  status : Status
  /-- The latched width `W` (R31). -/
  w : Dim
  /-- The latched height `H` (R31). -/
  h : Dim
  /-- The number of pixels the host supplies, `NPIX` (R32). -/
  npix : Nat
  /-- The number of bytes of output space, `CAP` (R32). -/
  cap : Nat
  /-- The input pixel space `PIX` (R35). -/
  pix : List Pixel
  /-- The output byte space `OUT` (R35). -/
  out : Memory
  /-- The host's moves to come, oldest first: the model's own field (notes/assumptions/2.md). -/
  host : List HostMove
  deriving DecidableEq, Repr

/-- `N = W * H`, over the natural numbers (00_scope.md R9, R17). -/
def State.pixelCount (s : State) : Nat := s.w.toNat * s.h.toNat

/-- A machine that stops with no next state. All of these are unreachable in a busy state that a START with honest inputs
leads to (60_exceptions.md R221). -/
inductive Fault where
  /-- Raised by `step` when neither the encoder nor the host has a move: IDLE, DONE or FAILED with no host move to come
  (44_framing.md R197), or PIXELS with `pos > W*H`. Safe: the block does nothing there either (notes/assumptions/6.md). -/
  | noStepEnabled
  /-- Raised by `PixRead(i)` with `i >= NPIX`, which "never happens" (20_memory.md R52). Safe (notes/assumptions/7.md). -/
  | pixReadOutOfRange
  /-- Raised by `PixRead(i)` with `i < NPIX` where the host supplied fewer pixels than it claimed (60_exceptions.md R223).
  Safe (notes/assumptions/7.md). -/
  | pixNotSupplied
  /-- Raised by a write of OUT at or beyond `CAP` (44_framing.md R202 says it never happens). Safe (notes/assumptions/8.md). -/
  | outBeyondCapacity
  deriving DecidableEq, Repr

/-- No meaning for the instruction as it stands. -/
inductive Refusal where
  /-- An instruction without a meaning: raised by no arm, since every instruction has one. Safe. -/
  | notModelled (mnemonic : String)
  /-- Raised by DIFF and LUMA given a delta outside its window (30_encoding.md R86, R87): no rule issues one.
  Safe (notes/assumptions/10.md). -/
  | deltaOutOfRange
  /-- Raised by RUN given `n` outside 1..62 (93_implementation_defined.md U2: "refuse (no rule invokes it so)").
  Safe (notes/assumptions/10.md). -/
  | runLengthOutOfRange
  deriving DecidableEq, Repr

/-- The outcome of one step or one meaning. -/
abbrev Result := Host.Outcome State Fault Refusal

/-- The state right after reset: phase, status, len and pos as 10_state.md R40 says; every register it leaves unspecified at
the value of notes/assumptions/1.md. DESIGN CHOICE, unsafe. -/
def State.reset : State where
  prev := Config.prevInit
  run := 0
  cache := Vector.replicate 64 Config.cacheInitPixel
  pos := 0
  len := 0
  phase := .idle
  status := .ok
  w := 0
  h := 0
  npix := 0
  cap := 0
  pix := []
  out := []
  host := []

end Sys2Proof.Machine
end

