-- ==== Sys2Proof/Machine/Ops.lean ====
section
/-! DEFINITION. The named operations over memory and registers: OUT and PIX (00_scope.md R13), the cache
(40_hash_cache.md), the common update (42_strategy_select.md R153), raising an error (60_exceptions.md R214). -/

namespace Sys2Proof.Machine

/-- One piece of pseudocode after another: the second runs in the state the first leaves (00_scope.md R12). -/
def andThen (o : Result) (f : State → Result) : Result :=
  match o with
  | .next s => f s
  | .fault r => .fault r
  | .refused r => .refused r

/-! ### The output space -/

/-- What an offset of OUT that nothing has written reads as: no value, since OUT is host-owned and the spec gives it no
contents (10_state.md R40, 20_memory.md R54). DESIGN CHOICE, safe: notes/assumptions/4.md. -/
def Memory.unlisted : Option Byte := none

/-- The byte of OUT at an offset. -/
def Memory.read (m : Memory) (a : Nat) : Option Byte :=
  match m with
  | [] => Memory.unlisted
  | (k, v) :: m' => if k = a then some v else Memory.read m' a

/-- Writes one byte, keeping the offsets strictly rising. -/
def Memory.write (m : Memory) (a : Nat) (b : Byte) : Memory :=
  match m with
  | [] => [(a, b)]
  | (k, v) :: m' =>
    if a < k then (a, b) :: (k, v) :: m'
    else if a = k then (a, b) :: m'
    else (k, v) :: Memory.write m' a b

/-- Writes bytes at rising offsets from `a`. -/
def Memory.writeBytes (m : Memory) (a : Nat) : List Byte → Memory
  | [] => m
  | b :: bs => Memory.writeBytes (Memory.write m a b) (a + 1) bs

/-- Every offset lies above `lo` and the offsets rise strictly. -/
def Memory.risingFrom : Option Nat → Memory → Bool
  | _, [] => true
  | none, (k, _) :: m => Memory.risingFrom (some k) m
  | some lo, (k, _) :: m => decide (lo < k) && Memory.risingFrom (some k) m

/-- The canonical form: offsets strictly rising, and no entry equal to what an unlisted offset reads as. -/
def Memory.wf (m : Memory) : Bool :=
  Memory.risingFrom none m && m.all fun c => decide (some c.2 ≠ Memory.unlisted)

/-- `MemWrite(addr, n, v)`: the `n`-byte value at `addr .. addr+n-1`, most significant byte first (00_scope.md R13). OUT has
`CAP` bytes (20_memory.md R53): a write beyond them stops (notes/assumptions/8.md). -/
def memWrite (addr n v : Nat) (s : State) : Result :=
  if addr + n ≤ s.cap then .next { s with out := Memory.writeBytes s.out addr (beBytes n v) }
  else .fault .outBeyondCapacity

/-- `Emit(b)` is `MemWrite(len, 1, b); len <- len + 1` (00_scope.md R13). -/
def emit (b : Byte) (s : State) : Result :=
  andThen (memWrite s.len 1 b.toNat s) fun t => .next { t with len := t.len + 1 }

/-- `EmitBytes(b0, b1, ...)`: the `Emit`s in that order (00_scope.md R13). -/
def emitBytes : List Byte → State → Result
  | [], s => .next s
  | b :: bs, s => andThen (emit b s) (emitBytes bs)

/-- The state that a list of `Emit`s leaves: the bytes at `len` and up, `len` past them (20_memory.md R53). -/
def appendOut (bs : List Byte) (s : State) : State :=
  { s with out := Memory.writeBytes s.out s.len bs, len := s.len + bs.length }

/-- `WriteBE32(v)` (44_framing.md R186). -/
def writeBE32 (v : Dim) (s : State) : Result := emitBytes (be32Bytes v) s

/-! ### The input space -/

/-- `PixRead(i)`, `0 <= i < NPIX`, with no side effect (00_scope.md R13); outside that range it "never happens"
(20_memory.md R52) and stops here (notes/assumptions/7.md). -/
def pixRead (i : Nat) (s : State) : Except Fault Pixel :=
  if i < s.npix then
    match s.pix[i]? with
    | some p => .ok p
    | none => .error .pixNotSupplied
  else .error .pixReadOutOfRange

/-- Runs a step on `p = PixRead(pos)` (42_strategy_select.md R140). -/
def withPixel (s : State) (f : Pixel → Result) : Result :=
  match pixRead s.pos s with
  | .ok p => f p
  | .error r => .fault r

/-- `pos <- pos + 1` (20_memory.md R71). -/
def advancePos (s : State) : Result := .next { s with pos := s.pos + 1 }

/-! ### The hash and the running cache -/

/-- `HASH(p) = (3*p.r + 5*p.g + 7*p.b + 11*p.a) mod 64`, the sum over the integers (40_hash_cache.md R110). -/
def pixelHash (p : Pixel) : Slot := BitVec.ofNat 6 (3 * p.r.toNat + 5 * p.g.toNat + 7 * p.b.toNat + 11 * p.a.toNat)

/-- `cache[k]` (00_scope.md R12). -/
def cacheRead (cache : Cache) (k : Slot) : Pixel := cache[k.toNat]'k.isLt

/-- `cache[k] <- p`. -/
def cacheWrite (cache : Cache) (k : Slot) (p : Pixel) : Cache := cache.set k.toNat p k.isLt

/-- `CacheLookup(p)`: equality with the slot on all four channels (40_hash_cache.md R113). -/
def cacheLookup (c : Cache) (p : Pixel) : Bool := decide (cacheRead c (pixelHash p) = p)

/-- `CacheUpdate(p)`: overwrites the slot unconditionally (40_hash_cache.md R114). -/
def cacheUpdate (c : Cache) (p : Pixel) : Cache := cacheWrite c (pixelHash p) p

/-- All 64 slots at `(0,0,0,0)` (44_framing.md R192, 20_memory.md R70). -/
def cacheInit : Cache := Vector.replicate 64 Config.cacheInitPixel

/-! ### What records do to the registers -/

/-- `run <- run + 1` (42_strategy_select.md R142), 6 bits wide (10_state.md R23; notes/assumptions/14.md). -/
def countRun (s : State) : State := { s with run := s.run + 1 }

/-- The common update: `prev <- p; cache[HASH(p)] <- p` (42_strategy_select.md R153). -/
def commonUpdate (p : Pixel) (s : State) : State := { s with prev := p, cache := cacheUpdate s.cache p }

/-- A record of strategies 2 to 6: its bytes, then the common update with the current pixel, which the step reads first
(42_strategy_select.md R140, R153; 20_memory.md R66). -/
def emitRecord (bytes : List Byte) (s : State) : Result :=
  withPixel s fun p => andThen (emitBytes bytes s) fun t => .next (commonUpdate p t)

/-! ### Errors -/

/-- `raise E`: exactly these four writes (60_exceptions.md R214). There is no return from it: FAILED is left by START or reset
(R215). -/
def raiseError (e : EncodeError) (s : State) : State :=
  { s with status := e.status, len := 0, pos := 0, phase := .failed }

end Sys2Proof.Machine
end

