-- ==== Sys2Proof/Machine/Operands.lean ====
section
/-! DEFINITION. The operands of the records: the wraparound-difference unit (41_wraparound.md) and its uses by the DIFF and
LUMA strategies (42_strategy_select.md R146, R148). -/

namespace Sys2Proof.Machine

/-- `sext_8(v) = v` if `v < 128`, else `v - 256` (00_scope.md R10). -/
def sext8 (v : Byte) : Int := if v.toNat < 128 then (v.toNat : Int) else (v.toNat : Int) - 256

/-- `WRAPDIFF(o, c, lo, hi)` (41_wraparound.md R125): the pair `(fit, d)` as an optional delta, so that no-fit is no number
(R128). -/
def wrapDiff (o c : Byte) (lo hi : Int) : Option Int :=
  let d := sext8 (c - o)
  if lo ≤ d ∧ d ≤ hi then some d else none

/-- The document's three branches, over the integers (41_wraparound.md R126). -/
def wrapDiff3 (o c : Byte) (lo hi : Int) : Option Int :=
  let o' : Int := o.toNat
  let c' : Int := c.toNat
  if o' + lo ≤ c' ∧ c' ≤ o' + hi then some (c' - o')
  else if o' + lo < 0 ∧ c' ≥ 256 + o' + lo then some (c' - o' - 256)
  else if o' + hi > 255 ∧ c' ≤ o' + hi - 256 then some (c' - o' + 256)
  else none

/-- The operands of DIFF. -/
structure DiffOperands where
  dr : Int
  dg : Int
  db : Int
  deriving DecidableEq, Repr

/-- The operands of LUMA: the document's `Δg`, `Δr-Δg`, `Δb-Δg`. -/
structure LumaOperands where
  lg : Int
  lr : Int
  lb : Int
  deriving DecidableEq, Repr

/-- The three deltas of 42_strategy_select.md R146, if all three fit. -/
def diffOperands (prev p : Pixel) : Option DiffOperands :=
  match wrapDiff prev.r p.r Config.diffLo Config.diffHi, wrapDiff prev.g p.g Config.diffLo Config.diffHi,
      wrapDiff prev.b p.b Config.diffLo Config.diffHi with
  | some dr, some dg, some db => some ⟨dr, dg, db⟩
  | _, _, _ => none

/-- The secondary base of the luma uses: `(prev.c + lg) mod 256` (41_wraparound.md R132). -/
def lumaBase (c : Byte) (lg : Int) : Byte := c + BitVec.ofInt 8 lg

/-- The three deltas of 42_strategy_select.md R148: (b) and (c) are evaluated only when (a) fits. -/
def lumaOperands (prev p : Pixel) : Option LumaOperands :=
  match wrapDiff prev.g p.g Config.lumaGLo Config.lumaGHi with
  | none => none
  | some lg =>
    match wrapDiff (lumaBase prev.r lg) p.r Config.lumaRBLo Config.lumaRBHi,
        wrapDiff (lumaBase prev.b lg) p.b Config.lumaRBLo Config.lumaRBHi with
    | some lr, some lb => some ⟨lg, lr, lb⟩
    | _, _ => none

end Sys2Proof.Machine
end

