-- ==== Sys2Proof/Machine/Flags.lean ====
section
/-! DEFINITION. The combinational conditions of 10_state.md R33: the block stores no flags; each is a function of the
current pixel, `prev` and `cache`, computed anew in every PIXEL step. -/

namespace Sys2Proof.Machine

/-- `eq_prev`: `p == prev` (42_strategy_select.md R141, 40_hash_cache.md R117). -/
def eqPrev (prev p : Pixel) : Bool := decide (p = prev)

/-- `hit`: `cache[HASH(p)] == p` (42_strategy_select.md R144). -/
def hit (cache : Cache) (p : Pixel) : Bool := cacheLookup cache p

/-- `alpha_same`: `p.a == prev.a` (42_strategy_select.md R146). -/
def alphaSame (prev p : Pixel) : Bool := decide (p.a = prev.a)

/-- `fit_dr`, `fit_dg`, `fit_db` of one channel: `WRAPDIFF(prev.c, p.c, -2, +1)` (42_strategy_select.md R146). -/
def fitDiff (o c : Byte) : Bool := (wrapDiff o c Config.diffLo Config.diffHi).isSome

/-- `fit_lg`: `WRAPDIFF(prev.g, p.g, -32, +31)` (42_strategy_select.md R148). -/
def fitLumaG (o c : Byte) : Bool := (wrapDiff o c Config.lumaGLo Config.lumaGHi).isSome

/-- `fit_lr`, `fit_lb` of one channel: `WRAPDIFF((prev.c + lg) mod 256, p.c, -8, +7)`, meaningful only when `fit_lg`
(42_strategy_select.md R148). -/
def fitLumaRB (o c : Byte) (lg : Int) : Bool := (wrapDiff (lumaBase o lg) c Config.lumaRBLo Config.lumaRBHi).isSome

/-- "DIFF fits" of the decision table (42_strategy_select.md R152). -/
def diffFits (prev p : Pixel) : Bool := fitDiff prev.r p.r && fitDiff prev.g p.g && fitDiff prev.b p.b

/-- "LUMA fits" of the decision table (42_strategy_select.md R152); `lg` is the green delta on the ring. -/
def lumaFits (prev p : Pixel) : Bool :=
  let lg := sext8 (p.g - prev.g)
  fitLumaG prev.g p.g && fitLumaRB prev.r p.r lg && fitLumaRB prev.b p.b lg

/-- `run > 0`: a run is pending (42_strategy_select.md R143, 44_framing.md R195). -/
def runPending (s : State) : Bool := decide (s.run ≠ 0)

/-- `run == 62`, tested right after the extension (43_run.md R171). -/
def runAtCap (s : State) : Bool := decide (s.run.toNat = Config.runMax)

end Sys2Proof.Machine
end

