-- ==== Sys2Proof/Machine/Frames.lean ====
section
/-! DEFINITION. The meanings of the two frame writers (44_framing.md R193, R196): each emits its bytes and changes the phase. When
a frame is written, and HEADER's operands, are the step's part (Machine/Sequencer.lean): notes/assumptions/9.md. -/

namespace Sys2Proof.Machine

/-- HEADER: the magic, the two big-endian dimensions, the two fixed bytes, then `phase <- PIXELS` (44_framing.md R193). The rule
enables it in phase HEADER with the registers `W` and `H`; that it has this effect for every `w` and `h` and in every phase is
the model's: DESIGN CHOICE, notes/assumptions/9.md. -/
def execHeader (w h : Dim) (s : State) : Result :=
  andThen (emitBytes Config.magic s) fun s1 =>
  andThen (writeBE32 w s1) fun s2 =>
  andThen (writeBE32 h s2) fun s3 =>
  andThen (emitBytes [Config.channelsByte, Config.colorspaceByte] s3) fun t =>
  .next { t with phase := .pixels }

/-- FOOTER: the eight bytes, then `phase <- DONE` (44_framing.md R196). The rule enables it in phase FOOTER; that it has this
effect in every phase is the model's: DESIGN CHOICE, notes/assumptions/9.md. -/
def execFooter (s : State) : Result :=
  andThen (emitBytes Config.footer s) fun t => .next { t with phase := .done }

end Sys2Proof.Machine
end

