-- ==== Sys2Proof/Machine/Records.lean ====
section
/-! DEFINITION. The meanings of the records of strategies 2 to 6 (42_strategy_select.md): each emits its bytes and performs the
common update with the current pixel `PixRead(pos)`. When a record is issued is the selector's part (Machine/Sequencer.lean):
notes/assumptions/9.md. -/

namespace Sys2Proof.Machine

/-- INDEX (42_strategy_select.md R145). -/
def execIndex (k : Slot) (s : State) : Result := emitRecord [indexByte k] s

/-- DIFF (42_strategy_select.md R147); a delta outside -2..+1 is no operand of it (30_encoding.md R86). -/
def execDiff (dr dg db : Int) (s : State) : Result :=
  if (Instr.diff dr dg db).wf then emitRecord [diffByte dr dg db] s else .refused .deltaOutOfRange

/-- LUMA (42_strategy_select.md R149); a delta outside its window is no operand of it (30_encoding.md R87). -/
def execLuma (dg drdg dbdg : Int) (s : State) : Result :=
  if (Instr.luma dg drdg dbdg).wf then emitRecord [lumaByte0 dg, lumaByte1 drdg dbdg] s
  else .refused .deltaOutOfRange

/-- RGB (42_strategy_select.md R150). -/
def execRgb (r g b : Byte) (s : State) : Result := emitRecord [Config.tagRgb, r, g, b] s

/-- RGBA (42_strategy_select.md R151). -/
def execRgba (r g b a : Byte) (s : State) : Result := emitRecord [Config.tagRgba, r, g, b, a] s

end Sys2Proof.Machine
end

