-- ==== Sys2Proof/Machine/Runs.lean ====
section
/-! DEFINITION. The meaning of RUN: `FlushRun` (43_run.md R172). -/

namespace Sys2Proof.Machine

/-- RUN `n`: emits the record and clears the counter; neither `prev` nor the cache is written (43_run.md R172). `n` outside
1..62 is refused, as 93_implementation_defined.md U2 says. The rule's operand is the current `run`; that it has this effect for
every `n` in range, in every phase, is the model's: DESIGN CHOICE, notes/assumptions/9.md. -/
def execRun (n : Nat) (s : State) : Result :=
  if (Instr.run n).wf then andThen (emitBytes [runByte n] s) fun t => .next { t with run := 0 }
  else .refused .runLengthOutOfRange

end Sys2Proof.Machine
end

