-- ==== Sys2Proof/Machine/HostInterface.lean ====
section
/-! DEFINITION. What the host does and sees (44_framing.md R203): START (R192), reset (70_reset_and_hazards.md R235), the byte
port of PIX (20_memory.md R51) and the reading of the result (R55). -/

namespace Sys2Proof.Machine

/-- `W_in * H_in`, exact over the natural numbers (44_framing.md R191, 60_exceptions.md R211). -/
def StartInputs.pixelCount (i : StartInputs) : Nat := i.w.toNat * i.h.toNat

/-- The two checks of START, the input length first (44_framing.md R192, 60_exceptions.md R217). -/
def startCheck (i : StartInputs) : Option EncodeError :=
  if i.npix ≠ i.pixelCount then some .inputLength
  else if i.cap < Config.capMin i.pixelCount then some .capacity
  else none

/-- What START loads once both checks have passed (44_framing.md R192). -/
def loadEncode (i : StartInputs) (s : State) : State :=
  { s with
    w := i.w, h := i.h, npix := i.npix, cap := i.cap, pix := i.pix
    prev := Config.prevInit, run := 0, cache := cacheInit
    pos := 0, len := 0, status := .ok, phase := .header }

/-- START (44_framing.md R192). Both checks precede every write. -/
def startEncode (i : StartInputs) (s : State) : State :=
  match startCheck i with
  | some e => raiseError e s
  | none => loadEncode i s

/-- Reset (70_reset_and_hazards.md R235): phase, status, len, pos; the registers it leaves unspecified take the values of
`State.reset` (DESIGN CHOICE, unsafe: notes/assumptions/3.md); OUT and PIX are the host's and are not touched. -/
def hostReset (s : State) : State :=
  { State.reset with pix := s.pix, out := s.out, host := s.host }

/-- The bytes of a pixel in PIX: r, g, b, a at rising offsets (20_memory.md R51). -/
def Pixel.toBytes (p : Pixel) : List Byte := [p.r, p.g, p.b, p.a]

/-- A Pixel as a 32-bit word, `r` in bits 31:24 (00_scope.md R11). -/
def Pixel.toWord (p : Pixel) : BitVec 32 := p.r ++ p.g ++ p.b ++ p.a

/-- The pixel sequence of a byte-level input port: pixel `i` at bytes `4*i .. 4*i+3` (20_memory.md R51); bytes that do not
fill a pixel are no pixel sequence. -/
def pixelsOfBytes : List Byte → Option (List Pixel)
  | [] => some []
  | r :: g :: b :: a :: rest =>
    match pixelsOfBytes rest with
    | some ps => some (⟨r, g, b, a⟩ :: ps)
    | none => none
  | _ => none

/-- The bytes of OUT from `a` on, `n` of them. -/
def readBytes (m : Memory) (a : Nat) : Nat → List (Option Byte)
  | 0 => []
  | n + 1 => Memory.read m a :: readBytes m (a + 1) n

/-- `phase`, which the host may read at any time (10_state.md R28, 44_framing.md R203). -/
def hostPhase (s : State) : Phase := s.phase

/-- `LEN`, which the host may read at DONE and FAILED (44_framing.md R203). -/
def hostLen (s : State) : Option Nat :=
  match s.phase with
  | .done | .failed => some s.len
  | _ => none

/-- The code in `status`, meaningful at DONE and FAILED (10_state.md R30). -/
def hostStatus (s : State) : Option Nat :=
  match s.phase with
  | .done | .failed => some s.status.code
  | _ => none

/-- `OUT[0 .. LEN-1]`, which the host owns at DONE and only then (20_memory.md R55, 44_framing.md R197). -/
def hostResult (s : State) : Option (List (Option Byte)) :=
  match s.phase with
  | .done => some (readBytes s.out 0 s.len)
  | _ => none

end Sys2Proof.Machine
end

