-- ==== Sys2Proof/Machine/Sequencer.lean ====
section
/-! DEFINITION. The strategy selector (42_strategy_select.md R140, R152), the run extension (43_run.md R171), the steps of one
encode (44_framing.md R192 to R197) and the turn of the host. -/

namespace Sys2Proof.Machine

/-- The record of a pixel that differs from `prev`: strategies 2 to 6 in strict priority order (42_strategy_select.md R140,
R152). -/
def selectRecord (prev : Pixel) (cache : Cache) (p : Pixel) : Instr :=
  if hit cache p then .index (pixelHash p)
  else if alphaSame prev p then
    match diffOperands prev p with
    | some d => .diff d.dr d.dg d.db
    | none =>
      match lumaOperands prev p with
      | some l => .luma l.lg l.lr l.lb
      | none => .rgb p.r p.g p.b
  else .rgba p.r p.g p.b p.a

/-- `FlushRun()` with the current `run` as its operand (43_run.md R172). -/
def flushRun (s : State) : Result := exec (.run s.run.toNat) s

/-- `if run > 0: FlushRun()` (42_strategy_select.md R143, 44_framing.md R195). -/
def flushPending (s : State) : Result := if runPending s then flushRun s else .next s

/-- Strategy 1: `run <- run + 1`, then the cap check (42_strategy_select.md R142, 43_run.md R171). -/
def extendRun (s : State) : Result :=
  if runAtCap (countRun s) then flushRun (countRun s) else .next (countRun s)

/-- The body of the PIXEL step on the pixel `p`, up to `pos <- pos + 1` (42_strategy_select.md R140). -/
def pixelBody (p : Pixel) (s : State) : Result :=
  if eqPrev s.prev p then extendRun s
  else andThen (flushPending s) fun t => exec (selectRecord t.prev t.cache p) t

/-- The PIXEL step (42_strategy_select.md R140). -/
def pixelStep (s : State) : Result :=
  withPixel s fun p => andThen (pixelBody p s) advancePos

/-- PIXELS: a PIXEL step while `pos < W*H`, the transition to FLUSH at `pos == W*H` (44_framing.md R194). Beyond that no step
is enabled. -/
def pixelsPhase (s : State) : Result :=
  if s.pos < s.pixelCount then pixelStep s
  else if s.pos = s.pixelCount then .next { s with phase := .flush }
  else .fault .noStepEnabled

/-- The FLUSH step (44_framing.md R195). -/
def flushStep (s : State) : Result :=
  andThen (flushPending s) fun t => .next { t with phase := .footer }

/-- The one enabled step of the encoder in each phase (44_framing.md R193 to R197). -/
def encoderStep (s : State) : Result :=
  match s.phase with
  | .header => exec (.header s.w s.h) s
  | .pixels => pixelsPhase s
  | .flush => flushStep s
  | .footer => exec .footer s
  | .idle => .fault .noStepEnabled
  | .done => .fault .noStepEnabled
  | .failed => .fault .noStepEnabled

/-- A turn in which the host does nothing: the encoder's step while it is busy, and nothing otherwise
(notes/assumptions/2.md). -/
def encoderTurn (s : State) : Result := if s.phase.busy then encoderStep s else .next s

/-- One step of the machine: the host's next move if it has one now, the encoder's step otherwise. Reset may occur in any
phase (70_reset_and_hazards.md R235). START is enabled in IDLE, DONE and FAILED only (44_framing.md R192); while the block is
busy there is no such move (70_reset_and_hazards.md R243) and the encoder goes on.

DESIGN CHOICE, unsafe (notes/assumptions/2.md): the host's moves are taken strictly in their order, and only the first of the
queue is looked at. A reset or a wait that stands behind a START held while the block is busy is therefore not taken until the
encode has ended and that START has been taken. The spec has no such queue and says nothing of a reset behind a START that has
no move (60_exceptions.md R215, 70_reset_and_hazards.md R235). -/
def machineStep (s : State) : Result :=
  match s.host with
  | [] => encoderStep s
  | .reset :: rest => .next (hostReset { s with host := rest })
  | .wait :: rest => encoderTurn { s with host := rest }
  | .start i :: rest => if s.phase.busy then encoderStep s else .next (startEncode i { s with host := rest })

end Sys2Proof.Machine
end

