-- ==== Sys2Proof/Machine/Fetch.lean ====
section
/-! DEFINITION. Placing an instruction so that the next step issues it. The block has no instruction memory (10_state.md R26):
its program is the image, and a record is issued because of the pixel at `pos`, `prev`, the cache and `run`. This file sets those
(notes/assumptions/12.md). -/

namespace Sys2Proof.Machine

/-- Another pixel of the same hash slot: adding 64 to `r` adds 192 = 3 * 64 to the sum (95_test_vectors.md V2.3). -/
def collider (p : Pixel) : Pixel := { p with r := p.r + 64 }

/-- The cache with no hit for `p`: a colliding pixel in its slot if `p` was there. -/
def evict (c : Cache) (p : Pixel) : Cache :=
  if cacheLookup c p then cacheWrite c (pixelHash p) (collider p) else c

/-- A pixel whose hash is `k`: `3 * 43 = 129 = 1 (mod 64)`. -/
def pixelOfHash (k : Slot) : Pixel := ⟨BitVec.ofNat 8 (43 * k.toNat % 64), 0, 0, 0⟩

/-- The pixel at the given deltas from `q` on the ring, alpha unchanged. -/
def offsetPixel (q : Pixel) (dr dg db : Int) : Pixel :=
  ⟨q.r + BitVec.ofInt 8 dr, q.g + BitVec.ofInt 8 dg, q.b + BitVec.ofInt 8 db, q.a⟩

/-- The pixel half-way round the ring on every colour channel, alpha unchanged: no delta fits (41_wraparound.md R129). -/
def antipode (p : Pixel) : Pixel := ⟨p.r + 128, p.g + 128, p.b + 128, p.a⟩

/-- `q`, with another alpha if its alpha is that of `p`. -/
def withOtherAlpha (q p : Pixel) : Pixel := if q.a = p.a then { q with a := q.a + 1 } else q

/-- A 1 x 1 image of `p` about to be encoded, with the given `prev` and cache, no run pending, and room for any record. -/
def placePixel (prev : Pixel) (cache : Cache) (p : Pixel) (s : State) : State :=
  { s with
    host := [], phase := .pixels, w := 1, h := 1, npix := 1, pix := [p], pos := 0
    run := 0, prev := prev, cache := cache, cap := max s.cap (s.len + Config.maxRecord) }

/-- The state whose next step issues `i`, for every `i` that the block can issue (30_encoding.md R95 lists the others). -/
def placeInstr (i : Instr) (s : State) : State :=
  match i with
  | .index k =>
    let p := pixelOfHash k
    placePixel (withOtherAlpha s.prev p) (cacheWrite s.cache k p) p s
  | .diff dr dg db =>
    let p := offsetPixel s.prev dr dg db
    placePixel s.prev (evict s.cache p) p s
  | .luma dg drdg dbdg =>
    let p := offsetPixel s.prev (dg + drdg) dg (dg + dbdg)
    placePixel s.prev (evict s.cache p) p s
  | .run n =>
    { s with host := [], phase := .flush, run := BitVec.ofNat 6 n, cap := max s.cap (s.len + 1) }
  | .rgb r g b =>
    let p : Pixel := ⟨r, g, b, s.prev.a⟩
    placePixel (antipode p) (evict s.cache p) p s
  | .rgba r g b a =>
    let p : Pixel := ⟨r, g, b, a⟩
    placePixel (withOtherAlpha s.prev p) (evict s.cache p) p s
  | .header w h =>
    { s with host := [], phase := .header, w := w, h := h, cap := max s.cap (s.len + Config.headerSize) }
  | .footer => { s with host := [], phase := .footer, cap := max s.cap (s.len + Config.footerSize) }

/-- The block can issue `i` (30_encoding.md R95 items 1, 2, 5): its operands are in range, DIFF is not `0, 0, 0`, and LUMA is
no pixel that DIFF would fit. -/
def issuable (i : Instr) : Bool :=
  i.wf && match i with
  | .diff dr dg db => decide ((dr, dg, db) ≠ (0, 0, 0))
  | .luma dg drdg dbdg => !(Instr.diff (dg + drdg) dg (dg + dbdg)).wf
  | .index _ => true
  | .run _ => true
  | .rgb _ _ _ => true
  | .rgba _ _ _ _ => true
  | .header _ _ => true
  | .footer => true

end Sys2Proof.Machine
end

