-- ==== Sys2Proof/Machine/Step.lean ====
section
/-! DEFINITION. One step of the machine, and an instruction placed where the next step issues it. -/

namespace Sys2Proof.Machine

/-- One step: the host's move or the encoder's (44_framing.md R192 to R197). -/
def step (s : State) : Host.Outcome State Fault Refusal := machineStep s

/-- `s` set up so that the next step issues the instruction of a row's word (notes/assumptions/12.md); a word that is no
instruction changes nothing. -/
def State.withFetchWord (s : State) (nbits w : Nat) : State :=
  match decodeTableWord nbits w with
  | some i => placeInstr i s
  | none => s

end Sys2Proof.Machine
end

