-- ==== Sys2Proof/Machine/Functional.lean ====
section
/-! DEFINITION. The whole encode as one function (44_framing.md R200), beside the step form and to be proved equal to it. -/

namespace Sys2Proof.Machine

/-- The state `(prev, run, cache)` that the functional form threads through the pixels (44_framing.md R200). -/
structure CodecState where
  prev : Pixel
  run : Nat
  cache : Cache
  deriving DecidableEq, Repr

/-- `((0,0,0,255), 0, 64 x (0,0,0,0))` (44_framing.md R200). -/
def CodecState.init : CodecState := ⟨Config.prevInit, 0, cacheInit⟩

/-- The RUN record of a pending run, if there is one. -/
def pendingRun (n : Nat) : List Byte := if n > 0 then encode (.run n) else []

/-- The bytes that the PIXEL step's body appends for `p` (42_strategy_select.md R140). -/
def codecBytes (c : CodecState) (p : Pixel) : List Byte :=
  if eqPrev c.prev p then (if c.run + 1 = Config.runMax then encode (.run Config.runMax) else [])
  else pendingRun c.run ++ encode (selectRecord c.prev c.cache p)

/-- The state that the PIXEL step's body leaves (42_strategy_select.md R140, R142, R153). -/
def codecNext (c : CodecState) (p : Pixel) : CodecState :=
  if eqPrev c.prev p then { c with run := if c.run + 1 = Config.runMax then 0 else c.run + 1 }
  else ⟨p, 0, cacheUpdate c.cache p⟩

/-- The record stream of the remaining pixels, with the final flush. -/
def recordsFrom (c : CodecState) : List Pixel → List Byte
  | [] => pendingRun c.run
  | p :: ps => codecBytes c p ++ recordsFrom (codecNext c p) ps

/-- The bytes that the given pixels have appended so far, with no final flush. -/
def emittedBytes (c : CodecState) : List Pixel → List Byte
  | [] => []
  | p :: ps => codecBytes c p ++ emittedBytes (codecNext c p) ps

/-- `records(pixels)` (44_framing.md R200). -/
def records (pixels : List Pixel) : List Byte := recordsFrom CodecState.init pixels

/-- `encode(W, H, pixels) = header(W, H) ++ records(pixels) ++ footer` (44_framing.md R200). -/
def encodeImage (w h : Dim) (pixels : List Pixel) : List Byte :=
  encode (.header w h) ++ records pixels ++ encode .footer

/-- `(prev, run, cache)` after the given pixels. -/
def codecAfter (pixels : List Pixel) : CodecState := pixels.foldl codecNext CodecState.init

/-- The pixels that were emitted by strategies 2 to 6, in order: those that differ from the pixel before them, the first from
`(0,0,0,255)` (10_state.md R38, 42_strategy_select.md R141). -/
def emittedFrom (before : Pixel) : List Pixel → List Pixel
  | [] => []
  | p :: ps => if p = before then emittedFrom before ps else p :: emittedFrom p ps

/-- The latest emitted pixel whose hash is `k`, or `(0,0,0,0)` if there is none (10_state.md R38). -/
def lastOfHash (pixels : List Pixel) (k : Slot) : Pixel :=
  (((emittedFrom Config.prevInit pixels).filter fun p => decide (pixelHash p = k)).getLast?).getD Config.cacheInitPixel

end Sys2Proof.Machine
end

