-- ==== Sys2Proof/Safety.lean ====
section
/-! DEFINITION. What a consistent state is, in the terms the statements use: the invariants the spec states of the machine
(10_state.md R23, R37, R38; 20_memory.md R65; 44_framing.md R202; 60_exceptions.md R221). -/

namespace Sys2Proof.Machine

/-- The host keeps its duty: the pixel count it claims is that of the sequence it hands over (60_exceptions.md R223). -/
def HostMove.honest : HostMove → Bool
  | .start i => decide (i.npix = i.pix.length)
  | .reset => true
  | .wait => true

/-- Every slot holds `(0,0,0,0)` or a pixel of its own hash (10_state.md R38). -/
def Cache.consistent (c : Cache) : Prop :=
  ∀ k : Slot, cacheRead c k = Config.cacheInitPixel ∨ pixelHash (cacheRead c k) = k

/-- One byte is owed to a pending run. -/
def State.owed (s : State) : Nat := if runPending s then 1 else 0

/-- The inputs that START has checked stay true while the block is busy: `NPIX = W*H`, that many pixels, room for the worst
case, no error, and `pos` within the image (20_memory.md R65). -/
structure State.InputsChecked (s : State) : Prop where
  npix_eq : s.npix = s.pixelCount
  pix_length : s.pix.length = s.npix
  capacity : Config.capMin s.pixelCount ≤ s.cap
  status_ok : s.status = .ok
  pos_le : s.pos ≤ s.pixelCount

/-- `prev` is the last pixel processed, or the initial value if there is none (10_state.md R37, R42). -/
def State.PrevIsLastPixel (s : State) : Prop :=
  s.prev = if s.pos = 0 then Config.prevInit else (s.pix[s.pos - 1]?).getD s.prev

/-- What each phase adds: how far `pos` and `run` have come, and that every pixel so far has cost at most five bytes, the
pending run's byte included (42_strategy_select.md R154, 44_framing.md R202). -/
def State.PhaseInv (s : State) : Prop :=
  match s.phase with
  | .idle => s.len = 0 ∧ s.pos = 0 ∧ s.status = .ok
  | .header => s.InputsChecked ∧ s.len = 0 ∧ s.pos = 0 ∧ s.run = 0 ∧ s.prev = Config.prevInit
  | .pixels =>
    s.InputsChecked ∧ s.PrevIsLastPixel ∧ Config.headerSize ≤ s.len
      ∧ s.len + s.owed ≤ Config.headerSize + Config.maxRecord * s.pos
  | .flush =>
    s.InputsChecked ∧ s.PrevIsLastPixel ∧ s.pos = s.pixelCount ∧ Config.headerSize ≤ s.len
      ∧ s.len + s.owed ≤ Config.headerSize + Config.maxRecord * s.pos
  | .footer =>
    s.InputsChecked ∧ s.PrevIsLastPixel ∧ s.pos = s.pixelCount ∧ s.run = 0 ∧ Config.headerSize ≤ s.len
      ∧ s.len ≤ Config.headerSize + Config.maxRecord * s.pos
  | .done =>
    s.InputsChecked ∧ s.PrevIsLastPixel ∧ s.pos = s.pixelCount ∧ s.run = 0 ∧ 22 ≤ s.len
      ∧ s.len ≤ Config.capMin s.pixelCount
  | .failed => s.len = 0 ∧ s.pos = 0 ∧ s.status ≠ .ok

/-- The invariant of the machine. -/
structure State.Inv (s : State) : Prop where
  out_wf : Memory.wf s.out = true
  host_honest : ∀ m ∈ s.host, m.honest = true
  run_le : s.run.toNat ≤ 61
  cache_consistent : Cache.consistent s.cache
  phase_inv : s.PhaseInv

/-- What OUT holds below `len`, phase by phase: the header, then the bytes of the pixels processed so far, then the final flush,
then the footer (44_framing.md R192 to R200). -/
def State.bytesSoFar (s : State) : List Byte :=
  match s.phase with
  | .pixels | .flush => encode (.header s.w s.h) ++ emittedBytes CodecState.init (s.pix.take s.pos)
  | .footer => encode (.header s.w s.h) ++ records s.pix
  | .done => encodeImage s.w s.h s.pix
  | .idle | .header | .failed => []

/-- The run counter of the functional form: the final flush has cleared it from FOOTER on (44_framing.md R195). -/
def State.runSoFar (s : State) : Nat :=
  match s.phase with
  | .footer | .done => 0
  | _ => (codecAfter (s.pix.take s.pos)).run

/-- The encode is on the track of the functional form: while the block is busy and at DONE, `prev`, `run` and the cache are
those of the pixels processed so far, and OUT holds exactly their bytes (44_framing.md R200). -/
def State.OnTrack (s : State) : Prop :=
  s.phase.busy = true ∨ s.phase = .done →
    s.prev = (codecAfter (s.pix.take s.pos)).prev ∧ s.run.toNat = s.runSoFar
    ∧ s.cache = (codecAfter (s.pix.take s.pos)).cache
    ∧ s.len = s.bytesSoFar.length ∧ ∀ k, k < s.len → Memory.read s.out k = s.bytesSoFar[k]?

end Sys2Proof.Machine
end

