-- ==== Sys2Proof/Certificates/Slice0/Obligations.lean ====
section
/-! DEFINITION. The statements for the provers, from the numbered rules of spec/. Where a statement rests on a choice of the
model, its docstring names the log entry. -/

open Sys2Proof Sys2Proof.Machine

/-! ## Encodings (30_encoding.md) -/

/-- R100, the inverse of R85 to R92: decoding the bytes of a well-formed instruction, in its part of the container and with
anything after them, gives it back with every operand and leaves what follows. -/
def Obligations.DecodeOfEncodeIsTheInstruction : Prop :=
  ∀ (i : Instr) (rest : List Byte), i.wf = true → decode i.part (encode i ++ rest) = .ok (i, rest)

/-- The other direction: bytes that decode are exactly the encoding of the well-formed instruction they decode to, followed by
the rest. -/
def Obligations.DecodedBytesAreTheEncoding : Prop :=
  ∀ (part : StreamPart) (bs rest : List Byte) (i : Instr), decode part bs = .ok (i, rest) →
    i.wf = true ∧ i.part = part ∧ bs = encode i ++ rest

/-- R94: every leading byte is assigned, each range to its record; the RUN field values 62 and 63 are the two escapes; header
bytes 12 and 13 are 4 and 0. -/
def Obligations.EveryLeadingByteIsAssigned : Prop :=
  (∀ (b : Byte) (cs : List Byte), 4 ≤ cs.length →
    ∃ i rest, decode .records (b :: cs) = .ok (i, rest)
      ∧ (b.toNat ≤ 0x3F → ∃ k, i = .index k)
      ∧ (0x40 ≤ b.toNat ∧ b.toNat ≤ 0x7F → ∃ dr dg db, i = .diff dr dg db)
      ∧ (0x80 ≤ b.toNat ∧ b.toNat ≤ 0xBF → ∃ dg drdg dbdg, i = .luma dg drdg dbdg)
      ∧ (0xC0 ≤ b.toNat ∧ b.toNat ≤ 0xFD → ∃ n, i = .run n)
      ∧ (b.toNat = 0xFE → ∃ r g bl, i = .rgb r g bl)
      ∧ (b.toNat = 0xFF → ∃ r g bl a, i = .rgba r g bl a))
  ∧ runByte (62 + 1) = Config.tagRgb ∧ runByte (63 + 1) = Config.tagRgba
  ∧ (∀ w h : Dim, (encode (.header w h))[12]? = some 4 ∧ (encode (.header w h))[13]? = some 0)

/-- R96: the leading byte alone gives the length, whatever the bytes after it are. -/
def Obligations.LeadingByteAloneGivesTheLength : Prop :=
  ∀ (b : Byte) (cs : List Byte), 4 ≤ cs.length →
    let n := if b = 0xFE then 4 else if b = 0xFF then 5 else if 0x80 ≤ b.toNat ∧ b.toNat ≤ 0xBF then 2 else 1
    ∃ i, decode .records (b :: cs) = .ok (i, cs.drop (n - 1)) ∧ i.size = n ∧ (encode i).length = n

/-- Words written out from the spec's encodings (R85 to R92), one for each instruction, decode to the instruction they stand for.
Those of DIFF, LUMA, RUN, RGB, RGBA and FOOTER are the spec's own examples (R147, R149, R172, R150, R151, R92) and that of INDEX
is 95_test_vectors.md V3's; the header of a 10 x 11 image is written out from R91. -/
def Obligations.WordsOfTheSpecDecode : Prop :=
  decode .records [0x76] = .ok (.diff 1 (-1) 0, [])
  ∧ decode .records [0xA6, 0xCA] = .ok (.luma 6 4 2, [])
  ∧ decode .records [0xE4] = .ok (.run 37, [])
  ∧ decode .records [0xFE, 0xC8, 0x64, 0x32] = .ok (.rgb 200 100 50, [])
  ∧ decode .records [0xFF, 0x00, 0x00, 0x00, 0xFF] = .ok (.rgba 0 0 0 255, [])
  ∧ decode .records [0x09] = .ok (.index 9, [])
  ∧ decode .header [0x71, 0x6F, 0x69, 0x66, 0, 0, 0, 0x0A, 0, 0, 0, 0x0B, 0x04, 0x00] = .ok (.header 10 11, [])
  ∧ decode .footer [0, 0, 0, 0, 0, 0, 0, 1] = .ok (.footer, [])

/-- R248: the field of a RUN of 1..62 is `n - 1`, never 62 or 63, so its byte is neither escape; a run of 63 or 64 in one
record would be read as an RGB or RGBA record, whatever four bytes follow. -/
def Obligations.RunByteIsNeverAnEscape : Prop :=
  (∀ n, 1 ≤ n → n ≤ 62 →
    runByte n = 0xC0 ||| BitVec.ofNat 8 (n - 1) ∧ (runByte n &&& 0x3F).toNat = n - 1 ∧ (runByte n).toNat ≤ 0xFD
    ∧ runByte n ≠ 0xFE ∧ runByte n ≠ 0xFF)
  ∧ (∀ b c d e : Byte,
      decode .records [runByte 63, b, c, d, e] = .ok (.rgb b c d, [e])
      ∧ decode .records [runByte 64, b, c, d, e] = .ok (.rgba b c d e, []))

/-- R99 and R174: a block of `m` pixels equal to `prev`, met with no run pending and ended by a different pixel or by the end
of the stream, produces the records `RUNS m` and nothing else. -/
def Obligations.BlockOfEqualPixelsIsRuns : Prop :=
  ∀ (c : CodecState) (m : Nat) (rest : List Pixel), c.run = 0 → (∀ q ∈ rest.head?, q ≠ c.prev) →
    recordsFrom c (List.replicate m c.prev ++ rest) = (runs m).flatMap encode ++ recordsFrom c rest

/-! ## The wraparound unit and the hash (41_wraparound.md, 40_hash_cache.md) -/

/-- R126: the three branches return what the one formula returns, and at most one branch applies. -/
def Obligations.ThreeBranchesAgreeWithTheFormula : Prop :=
  ∀ (o c : Byte) (lo hi : Int), -128 ≤ lo → lo ≤ 0 → 0 ≤ hi → hi ≤ 127 →
    let o' : Int := o.toNat
    let c' : Int := c.toNat
    let case1 := o' + lo ≤ c' ∧ c' ≤ o' + hi
    let case2 := o' + lo < 0 ∧ 256 + o' + lo ≤ c'
    let case3 := 255 < o' + hi ∧ c' ≤ o' + hi - 256
    wrapDiff3 o c lo hi = wrapDiff o c lo hi ∧ ¬(case1 ∧ case2) ∧ ¬(case1 ∧ case3) ∧ ¬(case2 ∧ case3)

/-- R129: the seven laws of the unit, in its order: ring law, uniqueness, zero, half-way, no symmetry, translation, totality. -/
def Obligations.WraparoundUnitLaws : Prop :=
  ∀ (o c t : Byte) (lo hi : Int), -128 ≤ lo → lo ≤ 0 → 0 ≤ hi → hi ≤ 127 →
    (∀ d, wrapDiff o c lo hi = some d → ((o.toNat : Int) + d) % 256 = c.toNat)
    ∧ (∀ d lo' hi' d', wrapDiff o c lo hi = some d → wrapDiff o c lo' hi' = some d' → d = d')
    ∧ wrapDiff o o lo hi = some 0
    ∧ (((c.toNat : Int) - o.toNat) % 256 = 128 →
        sext8 (c - o) = -128 ∧ wrapDiff o c (-2) 1 = none ∧ wrapDiff o c (-32) 31 = none ∧ wrapDiff o c (-8) 7 = none)
    ∧ (wrapDiff 5 3 (-2) 1 = some (-2) ∧ wrapDiff 3 5 (-2) 1 = none)
    ∧ wrapDiff (o + t) (c + t) lo hi = wrapDiff o c lo hi
    ∧ (wrapDiff o c lo hi = none ∨ ∃ d, lo ≤ d ∧ d ≤ hi ∧ wrapDiff o c lo hi = some d)

/-- R247: the windows are closed at both ends and asymmetric, so exactly the offsets of the window fit, and the biases are 2,
32 and 8. -/
def Obligations.WindowsAreClosedAndAsymmetric : Prop :=
  (∀ (o : Byte) (d : Int), -128 ≤ d → d ≤ 127 →
    (wrapDiff o (o + BitVec.ofInt 8 d) Config.diffLo Config.diffHi = if -2 ≤ d ∧ d ≤ 1 then some d else none)
    ∧ (wrapDiff o (o + BitVec.ofInt 8 d) Config.lumaGLo Config.lumaGHi = if -32 ≤ d ∧ d ≤ 31 then some d else none)
    ∧ (wrapDiff o (o + BitVec.ofInt 8 d) Config.lumaRBLo Config.lumaRBHi = if -8 ≤ d ∧ d ≤ 7 then some d else none))
  ∧ (∀ dr dg db : Int, (Instr.diff dr dg db).wf = true →
      ((diffByte dr dg db).toNat : Int) = 0x40 + (dr + 2) * 16 + (dg + 2) * 4 + (db + 2))
  ∧ (∀ dg drdg dbdg : Int, (Instr.luma dg drdg dbdg).wf = true →
      ((lumaByte0 dg).toNat : Int) = 0x80 + (dg + 32)
      ∧ ((lumaByte1 drdg dbdg).toNat : Int) = (drdg + 8) * 16 + (dbdg + 8))

/-- R110 and the table of R112: the hash, the largest sum, and the spec's values. -/
def Obligations.HashIsTheWeightedSum : Prop :=
  (∀ p : Pixel,
    let sum := 3 * p.r.toNat + 5 * p.g.toNat + 7 * p.b.toNat + 11 * p.a.toNat
    (pixelHash p).toNat = sum % 64 ∧ sum ≤ 6630)
  ∧ pixelHash ⟨0, 0, 0, 0⟩ = 0 ∧ pixelHash ⟨0, 0, 0, 255⟩ = 53 ∧ pixelHash ⟨255, 0, 0, 255⟩ = 50 ∧ pixelHash ⟨255, 255, 255, 255⟩ = 38
  ∧ pixelHash ⟨1, 0, 0, 255⟩ = 56 ∧ pixelHash ⟨1, 255, 0, 255⟩ = 51 ∧ pixelHash ⟨11, 5, 8, 255⟩ = 39 ∧ pixelHash ⟨200, 100, 50, 255⟩ = 31
  ∧ pixelHash ⟨64, 0, 0, 255⟩ = 53 ∧ pixelHash ⟨128, 0, 0, 255⟩ = 53 ∧ pixelHash ⟨10, 20, 30, 255⟩ = 9 ∧ pixelHash ⟨11, 20, 30, 255⟩ = 12
  ∧ pixelHash ⟨7, 7, 7, 255⟩ = 30 ∧ pixelHash ⟨1, 2, 3, 4⟩ = 14

/-- R111: the hash is the same whatever the width of the intermediate sum, from 6 bits up. -/
def Obligations.HashIgnoresTheWidthOfTheSum : Prop :=
  ∀ (w : Nat) (p : Pixel), 6 ≤ w →
    (∀ x : Nat, x % 2 ^ w % 64 = x % 64)
    ∧ pixelHash p = (BitVec.ofNat w 3 * p.r.setWidth w + BitVec.ofNat w 5 * p.g.setWidth w + BitVec.ofNat w 7 * p.b.setWidth w
        + BitVec.ofNat w 11 * p.a.setWidth w).setWidth 6

/-- R113, R24, R39: at encode start the only pixel that hits is `(0,0,0,0)`, in slot 0; the initial `prev` is not in the
cache. -/
def Obligations.InitialCacheHitsOnlyTheZeroPixel : Prop :=
  (∀ p : Pixel, hit cacheInit p = true ↔ p = ⟨0, 0, 0, 0⟩)
  ∧ pixelHash ⟨0, 0, 0, 0⟩ = 0 ∧ hit cacheInit Config.prevInit = false
  ∧ ∀ k, cacheRead cacheInit k = ⟨0, 0, 0, 0⟩

/-! ## The meanings of the instructions: each completes, with its result -/

/-- R145 (and R85): INDEX completes wherever the current pixel can be read and OUT has room; on a hit the cache is left as it
was; the spec's corner cases. That it completes for every `k` and in every phase, where R145 gives it only the hash of a pixel
that hits, is the model's choice (notes/assumptions/9.md). -/
def Obligations.IndexEmitsItsHash : Prop :=
  (∀ (s : State) (k : Slot) (p : Pixel), pixRead s.pos s = .ok p → s.len + 1 ≤ s.cap →
    exec (.index k) s = .next { s with
      out := Memory.writeBytes s.out s.len [0x00 ||| k.setWidth 8], len := s.len + 1
      prev := p, cache := cacheWrite s.cache (pixelHash p) p })
  ∧ (∀ (c : Cache) (p : Pixel), hit c p = true → cacheWrite c (pixelHash p) p = c)
  ∧ (∀ prev (c : Cache) (p : Pixel), hit c p = true → selectRecord prev c p = .index (pixelHash p))
  ∧ (∀ (s : State) (p : Pixel), p = s.prev → pixelBody p s = extendRun s)
  ∧ selectRecord Config.prevInit cacheInit ⟨0, 0, 0, 0⟩ = .index 0 ∧ encode (.index 0) = [0x00]

/-- R147 (and R86): DIFF completes for all three deltas in -2..+1 wherever the current pixel can be read and OUT has room;
wraparound deltas count; the spec's example. That it completes for deltas that are not those of the current pixel (R146), and in
every phase, is the model's choice (notes/assumptions/9.md). -/
def Obligations.DiffEmitsBiasedDeltas : Prop :=
  (∀ (s : State) (dr dg db : Int) (p : Pixel), -2 ≤ dr ∧ dr ≤ 1 → -2 ≤ dg ∧ dg ≤ 1 → -2 ≤ db ∧ db ≤ 1 →
    pixRead s.pos s = .ok p → s.len + 1 ≤ s.cap →
    exec (.diff dr dg db) s = .next { s with
      out := Memory.writeBytes s.out s.len
        [0x40 ||| (BitVec.ofInt 8 (dr + 2) <<< 4) ||| (BitVec.ofInt 8 (dg + 2) <<< 2) ||| BitVec.ofInt 8 (db + 2)]
      len := s.len + 1, prev := p, cache := cacheWrite s.cache (pixelHash p) p })
  ∧ (∀ (prev : Pixel) (c : Cache) (p : Pixel) (dr dg db : Int), hit c p = false → p.a = prev.a →
      wrapDiff prev.r p.r (-2) 1 = some dr → wrapDiff prev.g p.g (-2) 1 = some dg → wrapDiff prev.b p.b (-2) 1 = some db →
      selectRecord prev c p = .diff dr dg db)
  ∧ wrapDiff 0 255 (-2) 1 = some (-1) ∧ wrapDiff 255 0 (-2) 1 = some 1
  ∧ encode (.diff 1 (-1) 0) = [0x76]

/-- R149 (and R87): LUMA completes for all deltas in their windows wherever the current pixel can be read and OUT has room;
the spec's corner cases and example. That it completes for deltas that are not those of the current pixel (R148), and in every
phase, is the model's choice (notes/assumptions/9.md). -/
def Obligations.LumaEmitsBiasedDeltas : Prop :=
  (∀ (s : State) (lg lr lb : Int) (p : Pixel), -32 ≤ lg ∧ lg ≤ 31 → -8 ≤ lr ∧ lr ≤ 7 → -8 ≤ lb ∧ lb ≤ 7 →
    pixRead s.pos s = .ok p → s.len + 2 ≤ s.cap →
    exec (.luma lg lr lb) s = .next { s with
      out := Memory.writeBytes s.out s.len
        [0x80 ||| BitVec.ofInt 8 (lg + 32), (BitVec.ofInt 8 (lr + 8) <<< 4) ||| BitVec.ofInt 8 (lb + 8)]
      len := s.len + 2, prev := p, cache := cacheWrite s.cache (pixelHash p) p })
  ∧ (∀ (prev : Pixel) (c : Cache) (p : Pixel) (lg lr lb : Int), hit c p = false → p.a = prev.a → diffFits prev p = false →
      wrapDiff prev.g p.g (-32) 31 = some lg → wrapDiff (prev.r + BitVec.ofInt 8 lg) p.r (-8) 7 = some lr →
      wrapDiff (prev.b + BitVec.ofInt 8 lg) p.b (-8) 7 = some lb → selectRecord prev c p = .luma lg lr lb)
  ∧ lumaOperands ⟨100, 100, 100, 255⟩ ⟨60, 68, 60, 255⟩ = some ⟨-32, -8, -8⟩
  ∧ lumaOperands ⟨100, 100, 100, 255⟩ ⟨138, 131, 138, 255⟩ = some ⟨31, 7, 7⟩
  ∧ lumaOperands ⟨100, 100, 100, 255⟩ ⟨138, 100, 100, 255⟩ = none
  ∧ lumaOperands ⟨10, 10, 10, 255⟩ ⟨255, 255, 255, 255⟩ = some ⟨-11, 0, 0⟩ ∧ encode (.luma (-11) 0 0) = [0x95, 0x88]
  ∧ lumaOperands ⟨1, 255, 0, 255⟩ ⟨11, 5, 8, 255⟩ = some ⟨6, 4, 2⟩ ∧ encode (.luma 6 4 2) = [0xA6, 0xCA]

/-- R150 (and R89): RGB completes for all channels wherever the current pixel can be read and OUT has room; the spec's three
examples. That it completes for channels that are not the current pixel's, and in every phase, is the model's choice
(notes/assumptions/9.md). -/
def Obligations.RgbEmitsRawChannels : Prop :=
  (∀ (s : State) (r g b : Byte) (p : Pixel), pixRead s.pos s = .ok p → s.len + 4 ≤ s.cap →
    exec (.rgb r g b) s = .next { s with
      out := Memory.writeBytes s.out s.len [0xFE, r, g, b], len := s.len + 4
      prev := p, cache := cacheWrite s.cache (pixelHash p) p })
  ∧ (∀ (prev : Pixel) (c : Cache) (p : Pixel), hit c p = false → p.a = prev.a → diffFits prev p = false →
      lumaFits prev p = false → selectRecord prev c p = .rgb p.r p.g p.b)
  ∧ selectRecord ⟨11, 5, 8, 255⟩ cacheInit ⟨200, 100, 50, 255⟩ = .rgb 200 100 50
  ∧ selectRecord ⟨20, 40, 10, 255⟩ cacheInit ⟨138, 40, 10, 255⟩ = .rgb 138 40 10
  ∧ selectRecord ⟨10, 40, 10, 255⟩ cacheInit ⟨138, 40, 10, 255⟩ = .rgb 138 40 10
  ∧ encode (.rgb 200 100 50) = [0xFE, 0xC8, 0x64, 0x32] ∧ encode (.rgb 138 40 10) = [0xFE, 0x8A, 0x28, 0x0A]

/-- R151 (and R90): RGBA completes for all channels wherever the current pixel can be read and OUT has room; where alpha
differs the only alternative is a cache hit; the spec's example. That it completes for channels that are not the current
pixel's, and in every phase, is the model's choice (notes/assumptions/9.md). -/
def Obligations.RgbaEmitsRawChannels : Prop :=
  (∀ (s : State) (r g b a : Byte) (p : Pixel), pixRead s.pos s = .ok p → s.len + 5 ≤ s.cap →
    exec (.rgba r g b a) s = .next { s with
      out := Memory.writeBytes s.out s.len [0xFF, r, g, b, a], len := s.len + 5
      prev := p, cache := cacheWrite s.cache (pixelHash p) p })
  ∧ (∀ prev (c : Cache) (p : Pixel), p.a ≠ prev.a →
      selectRecord prev c p = if hit c p then .index (pixelHash p) else .rgba p.r p.g p.b p.a)
  ∧ (∀ (c : Cache), cacheRead c 53 = ⟨0, 0, 0, 0⟩ →
      encode (selectRecord ⟨0, 0, 0, 0⟩ c ⟨0, 0, 0, 255⟩) = [0xFF, 0x00, 0x00, 0x00, 0xFF])

/-- R172 (and R88): RUN completes for every length 1..62 wherever OUT has room, clears `run`, and writes neither `prev` nor the
cache; with no run pending nothing is flushed; the spec's examples. That it completes for a length other than the `run` register's
is the model's choice (notes/assumptions/9.md); that neither `prev` nor the cache is written is the spec's decision D4. -/
def Obligations.RunEmitsAndClearsTheCounter : Prop :=
  (∀ (s : State) (n : Nat), 1 ≤ n → n ≤ 62 → s.len + 1 ≤ s.cap →
    exec (.run n) s = .next { s with
      out := Memory.writeBytes s.out s.len [0xC0 ||| BitVec.ofNat 8 (n - 1)], len := s.len + 1, run := 0 })
  ∧ (∀ s : State, s.run = 0 → flushPending s = .next s)
  ∧ (∀ n, 1 ≤ n → n ≤ 62 → runByte n ≠ 0xBF)
  ∧ encode (.run 1) = [0xC0] ∧ encode (.run 62) = [0xFD] ∧ encode (.run 37) = [0xE4]

/-- R193 (and R91, R187): HEADER completes for every width and height wherever OUT has room; the two fixed bytes do not depend
on anything; the spec's example. That it completes for every width and height, where R193 gives it the registers `W` and `H`, and
in every phase, where R193 enables it in HEADER, is the model's choice (notes/assumptions/9.md); the codes of the magic are
PRESUMED (notes/assumptions/13.md); the phase PIXELS is the spec's decision D2. -/
def Obligations.HeaderEmitsFourteenBytes : Prop :=
  (∀ (s : State) (w h : Dim), s.len + 14 ≤ s.cap →
    exec (.header w h) s = .next { s with
      out := Memory.writeBytes s.out s.len
        [0x71, 0x6F, 0x69, 0x66,
          w.extractLsb' 24 8, w.extractLsb' 16 8, w.extractLsb' 8 8, w.extractLsb' 0 8,
          h.extractLsb' 24 8, h.extractLsb' 16 8, h.extractLsb' 8 8, h.extractLsb' 0 8, 0x04, 0x00]
      len := s.len + 14, phase := .pixels })
  ∧ encode (.header 10 10) = [0x71, 0x6F, 0x69, 0x66, 0, 0, 0, 0x0A, 0, 0, 0, 0x0A, 0x04, 0x00]

/-- R196 (and R92, R190): FOOTER completes wherever OUT has room. That it completes in every phase, where R196 enables it in
FOOTER, is the model's choice (notes/assumptions/9.md); the phase DONE is the spec's decision D2. -/
def Obligations.FooterEmitsEightBytes : Prop :=
  ∀ s : State, s.len + 8 ≤ s.cap →
    exec .footer s = .next { s with
      out := Memory.writeBytes s.out s.len [0, 0, 0, 0, 0, 0, 0, 1], len := s.len + 8, phase := .done }

/-- R186: WriteBE32 is `MemWrite(len, 4, v); len <- len + 4`, wherever OUT has room; the spec's examples. -/
def Obligations.WriteBE32IsOneBigEndianWrite : Prop :=
  (∀ (s : State) (v : Dim), s.len + 4 ≤ s.cap →
    writeBE32 v s = andThen (memWrite s.len 4 v.toNat s) (fun t => .next { t with len := t.len + 4 })
    ∧ writeBE32 v s = .next { s with out := Memory.writeBytes s.out s.len (be32Bytes v), len := s.len + 4 })
  ∧ be32Bytes 0 = [0, 0, 0, 0] ∧ be32Bytes 0xFFFFFFFF = [0xFF, 0xFF, 0xFF, 0xFF] ∧ be32Bytes 10 = [0, 0, 0, 0x0A]
  ∧ be32Bytes 0x01020304 = [1, 2, 3, 4]

/-! ## Frames: what the instructions leave unchanged -/

/-- R145, R147, R149, R150, R151, R153: INDEX, DIFF, LUMA, RGB and RGBA write `prev`, one cache slot (that of the current
pixel), `len` and their own bytes of OUT at `len`, and nothing else. -/
def Obligations.RecordsLeaveTheRestUnchanged : Prop :=
  ∀ (i : Instr) (s t : State) (p : Pixel),
    (∃ k, i = .index k) ∨ (∃ dr dg db, i = .diff dr dg db) ∨ (∃ dg drdg dbdg, i = .luma dg drdg dbdg)
      ∨ (∃ r g b, i = .rgb r g b) ∨ (∃ r g b a, i = .rgba r g b a) →
    pixRead s.pos s = .ok p → exec i s = .next t →
    t.run = s.run ∧ t.pos = s.pos ∧ t.phase = s.phase ∧ t.status = s.status ∧ t.w = s.w ∧ t.h = s.h ∧ t.npix = s.npix
    ∧ t.cap = s.cap ∧ t.pix = s.pix ∧ t.host = s.host ∧ t.len = s.len + (encode i).length
    ∧ (∀ k, k ≠ pixelHash p → cacheRead t.cache k = cacheRead s.cache k)
    ∧ (∀ a, a < s.len ∨ s.len + (encode i).length ≤ a → Memory.read t.out a = Memory.read s.out a)
    ∧ (∀ k, k < (encode i).length → Memory.read t.out (s.len + k) = (encode i)[k]?)

/-- R172: RUN writes `run`, `len` and its own byte of OUT at `len`, and nothing else; in particular neither `prev` nor the
cache. -/
def Obligations.RunLeavesTheRestUnchanged : Prop :=
  ∀ (n : Nat) (s t : State), exec (.run n) s = .next t →
    t.prev = s.prev ∧ t.cache = s.cache ∧ t.pos = s.pos ∧ t.phase = s.phase ∧ t.status = s.status ∧ t.w = s.w ∧ t.h = s.h
    ∧ t.npix = s.npix ∧ t.cap = s.cap ∧ t.pix = s.pix ∧ t.host = s.host ∧ t.len = s.len + 1
    ∧ (∀ a, a ≠ s.len → Memory.read t.out a = Memory.read s.out a)
    ∧ Memory.read t.out s.len = (encode (.run n))[0]?

/-- R193, R196: HEADER and FOOTER write `phase`, `len` and their own bytes of OUT at `len`, and nothing else. -/
def Obligations.FrameWritersLeaveTheRestUnchanged : Prop :=
  ∀ (i : Instr) (s t : State), (∃ w h, i = .header w h) ∨ i = .footer → exec i s = .next t →
    t.prev = s.prev ∧ t.run = s.run ∧ t.cache = s.cache ∧ t.pos = s.pos ∧ t.status = s.status ∧ t.w = s.w ∧ t.h = s.h
    ∧ t.npix = s.npix ∧ t.cap = s.cap ∧ t.pix = s.pix ∧ t.host = s.host ∧ t.len = s.len + (encode i).length
    ∧ (∀ a, a < s.len ∨ s.len + (encode i).length ≤ a → Memory.read t.out a = Memory.read s.out a)
    ∧ (∀ k, k < (encode i).length → Memory.read t.out (s.len + k) = (encode i)[k]?)

/-! ## Where an instruction stops -/

/-- THE MODEL'S CHOICE (notes/assumptions/10.md; 93_implementation_defined.md U2 for RUN): an operand outside its encoding's
range is refused by name, and nothing else is refused. -/
def Obligations.OnlyIllFormedOperandsAreRefused : Prop :=
  (∀ (s : State) (dr dg db : Int), (Instr.diff dr dg db).wf = false →
    exec (.diff dr dg db) s = .refused .deltaOutOfRange)
  ∧ (∀ (s : State) (dg drdg dbdg : Int), (Instr.luma dg drdg dbdg).wf = false →
    exec (.luma dg drdg dbdg) s = .refused .deltaOutOfRange)
  ∧ (∀ (s : State) (n : Nat), n = 0 ∨ 62 < n → exec (.run n) s = .refused .runLengthOutOfRange)
  ∧ (∀ (i : Instr) (s : State) (r : Refusal), exec i s = .refused r → i.wf = false)

/-- THE MODEL'S CHOICE (notes/assumptions/7.md, 8.md): a record whose current pixel cannot be read, and an instruction without
room in OUT, stop with the fault of that name (20_memory.md R52, R53). -/
def Obligations.NoPixelOrNoRoomFaults : Prop :=
  (∀ (i : Instr) (s : State), i.wf = true →
    (∃ k, i = .index k) ∨ (∃ dr dg db, i = .diff dr dg db) ∨ (∃ dg drdg dbdg, i = .luma dg drdg dbdg)
      ∨ (∃ r g b, i = .rgb r g b) ∨ (∃ r g b a, i = .rgba r g b a) →
    (s.npix ≤ s.pos → exec i s = .fault .pixReadOutOfRange)
    ∧ (s.pos < s.npix → s.pix.length ≤ s.pos → exec i s = .fault .pixNotSupplied)
    ∧ (s.pos < s.npix → s.pos < s.pix.length → s.cap < s.len + (encode i).length →
        exec i s = .fault .outBeyondCapacity))
  ∧ (∀ (i : Instr) (s : State), i.wf = true →
    (∃ n, i = .run n) ∨ (∃ w h, i = .header w h) ∨ i = .footer →
    s.cap < s.len + (encode i).length → exec i s = .fault .outBeyondCapacity)

/-! ## The selector -/

/-- R152: the decision table, row by row, in terms of the signals of R33, with each record's operands as ring differences and
its length. -/
def Obligations.PriorityTable : Prop :=
  ∀ (prev : Pixel) (c : Cache) (p : Pixel),
    let lg := sext8 (p.g - prev.g)
    let i := selectRecord prev c p
    (∀ s : State, s.prev = prev → eqPrev prev p = true → pixelBody p s = extendRun s)
    ∧ (∀ s : State, s.prev = prev → eqPrev prev p = false →
        pixelBody p s = andThen (flushPending s) (fun t => exec (selectRecord t.prev t.cache p) t))
    ∧ (hit c p = true → i = .index (pixelHash p) ∧ (encode i).length = 1)
    ∧ (hit c p = false → alphaSame prev p = true → diffFits prev p = true →
        i = .diff (sext8 (p.r - prev.r)) lg (sext8 (p.b - prev.b)) ∧ (encode i).length = 1)
    ∧ (hit c p = false → alphaSame prev p = true → diffFits prev p = false → lumaFits prev p = true →
        i = .luma lg (sext8 (p.r - prev.r - BitVec.ofInt 8 lg)) (sext8 (p.b - prev.b - BitVec.ofInt 8 lg))
        ∧ (encode i).length = 2)
    ∧ (hit c p = false → alphaSame prev p = true → diffFits prev p = false → lumaFits prev p = false →
        i = .rgb p.r p.g p.b ∧ (encode i).length = 4)
    ∧ (hit c p = false → alphaSame prev p = false → i = .rgba p.r p.g p.b p.a ∧ (encode i).length = 5)

/-- R95 items 1 to 3 and 5, R93: the record selected for a pixel that differs from `prev` has every operand in range, is never
`DIFF 0, 0, 0`, never a LUMA where DIFF fits, never a RUN or a frame; RGBA never carries the alpha of `prev`; and only INDEX is
selected on a hit. -/
def Obligations.SelectorNeverProducesTheListedRecords : Prop :=
  ∀ (prev : Pixel) (c : Cache) (p : Pixel), p ≠ prev →
    let i := selectRecord prev c p
    i.wf = true ∧ i.part = .records ∧ (∀ n, i ≠ .run n) ∧ i ≠ .diff 0 0 0
    ∧ (∀ dg drdg dbdg, i = .luma dg drdg dbdg →
        ¬(-2 ≤ dg ∧ dg ≤ 1 ∧ -2 ≤ dg + drdg ∧ dg + drdg ≤ 1 ∧ -2 ≤ dg + dbdg ∧ dg + dbdg ≤ 1))
    ∧ (∀ r g b a, i = .rgba r g b a → a ≠ prev.a)
    ∧ (∀ r g b, i = .rgb r g b → diffFits prev p = false ∧ lumaFits prev p = false)
    ∧ ((∃ k, i = .index k) ↔ hit c p = true)

/-- R129 item 1 at the level of a record, and R113: the selected record determines the pixel. A reader that holds the same
`prev` and cache recovers `p` from the operands: by the slot, by adding the deltas on the ring, or from the raw channels. -/
def Obligations.SelectedRecordDeterminesThePixel : Prop :=
  ∀ (prev : Pixel) (c : Cache) (p : Pixel),
    (∀ k, selectRecord prev c p = .index k → cacheRead c k = p)
    ∧ (∀ dr dg db, selectRecord prev c p = .diff dr dg db → p = offsetPixel prev dr dg db)
    ∧ (∀ dg drdg dbdg, selectRecord prev c p = .luma dg drdg dbdg → p = offsetPixel prev (dg + drdg) dg (dg + dbdg))
    ∧ (∀ r g b, selectRecord prev c p = .rgb r g b → p = ⟨r, g, b, prev.a⟩)
    ∧ (∀ r g b a, selectRecord prev c p = .rgba r g b a → p = ⟨r, g, b, a⟩)

/-! ## The steps -/

/-- R140, R193 to R196: in each phase, with no move of the host to come, the step is the issued instruction's `exec` with what
the step adds around it: the flush in front, `pos <- pos + 1`, the change of phase. -/
def Obligations.StepRunsTheIssuedInstruction : Prop :=
  ∀ s : State, s.host = [] →
    (s.phase = .header → step s = exec (.header s.w s.h) s)
    ∧ (s.phase = .footer → step s = exec .footer s)
    ∧ (s.phase = .flush → s.run ≠ 0 →
        step s = andThen (exec (.run s.run.toNat) s) (fun t => .next { t with phase := .footer }))
    ∧ (s.phase = .flush → s.run = 0 → step s = .next { s with phase := .footer })
    ∧ (s.phase = .pixels → s.pos = s.pixelCount → step s = .next { s with phase := .flush })
    ∧ (∀ p, s.phase = .pixels → s.pos < s.pixelCount → pixRead s.pos s = .ok p →
        (p ≠ s.prev → s.run = 0 →
          step s = andThen (exec (selectRecord s.prev s.cache p) s) (fun t => .next { t with pos := t.pos + 1 }))
        ∧ (p ≠ s.prev → s.run ≠ 0 →
          step s = andThen (exec (.run s.run.toNat) s) (fun u =>
            andThen (exec (selectRecord s.prev s.cache p) u) (fun t => .next { t with pos := t.pos + 1 })))
        ∧ (p = s.prev → s.run ≠ 61 → step s = .next { s with run := s.run + 1, pos := s.pos + 1 })
        ∧ (p = s.prev → s.run = 61 →
          step s = andThen (exec (.run 62) { s with run := 62 }) (fun t => .next { t with pos := t.pos + 1 })))

/-- THE MODEL'S CHOICE of where an instruction is placed (notes/assumptions/11.md, 12.md): a row's word that decodes to an
instruction the block can issue is what the very next step runs, and its bytes are what the step appends to OUT. -/
def Obligations.PlacedWordIsRunByTheNextStep : Prop :=
  ∀ (s : State) (nbits w : Nat) (i : Instr), decodeTableWord nbits w = some i → issuable i = true →
    let u := s.withFetchWord nbits w
    step u = andThen (exec i u) (fun t =>
      match i with
      | .run _ => .next { t with phase := .footer }
      | .header _ _ => .next t
      | .footer => .next t
      | _ => .next { t with pos := t.pos + 1 })
    ∧ ∃ t, step u = .next t ∧ t.len = s.len + (encode i).length
      ∧ ∀ k, k < (encode i).length → Memory.read t.out (s.len + k) = (encode i)[k]?

/-- R141, R142, R171: a pixel equal to `prev` extends the run and emits nothing, and the 62nd emits the one byte `0xFD` and
clears the counter; `prev` and the cache are not written. That the flush at the cap is in this step is R171's marked decision,
D3 of 92_eei_decisions.md. -/
def Obligations.RunPixelExtendsOrFlushesAtTheCap : Prop :=
  ∀ s : State, s.host = [] → s.phase = .pixels → s.pos < s.pixelCount → pixRead s.pos s = .ok s.prev →
    (s.run.toNat < 61 → ∃ t, step s = .next t ∧ t.run.toNat = s.run.toNat + 1 ∧ t = { s with run := t.run, pos := s.pos + 1 })
    ∧ (s.run.toNat = 61 → s.len + 1 ≤ s.cap →
        step s = .next { s with
          run := 0, pos := s.pos + 1, out := Memory.writeBytes s.out s.len [0xFD], len := s.len + 1 })

/-- R143, R242, R140: a pixel that differs from `prev` writes the pending run's byte first, then its record; then the common
update and `pos + 1`. -/
def Obligations.FlushPrecedesTheRecord : Prop :=
  ∀ (s : State) (p : Pixel), s.host = [] → s.phase = .pixels → s.pos < s.pixelCount → pixRead s.pos s = .ok p → p ≠ s.prev →
    s.run.toNat ≤ 62 → s.len + 6 ≤ s.cap →
    let bytes := (if s.run = 0 then [] else [0xC0 ||| BitVec.ofNat 8 (s.run.toNat - 1)])
      ++ encode (selectRecord s.prev s.cache p)
    step s = .next { s with
      out := Memory.writeBytes s.out s.len bytes, len := s.len + bytes.length, run := 0
      prev := p, cache := cacheWrite s.cache (pixelHash p) p, pos := s.pos + 1 }

/-- R154: how many bytes a PIXEL step emits, and that with the pending run's byte counted as owed a pixel costs at most five. -/
def Obligations.PixelStepEmitsAtMostSixBytes : Prop :=
  ∀ (s t : State) (p : Pixel), s.host = [] → s.phase = .pixels → s.pos < s.pixelCount → pixRead s.pos s = .ok p →
    step s = .next t →
    t.len = s.len + (if p = s.prev then (if s.run.toNat = 61 then 1 else 0)
      else (if s.run = 0 then 0 else 1) + (selectRecord s.prev s.cache p).size)
    ∧ t.len ≤ s.len + 6 ∧ t.len + t.owed ≤ s.len + s.owed + 5

/-- R37: after every PIXEL step `prev == PixRead(i)`, without exception. -/
def Obligations.PrevIsThePixelAfterEveryPixelStep : Prop :=
  ∀ s t : State, s.host = [] → s.phase = .pixels → s.pos < s.pixelCount → step s = .next t →
    pixRead s.pos s = .ok t.prev

/-- R25, R114, R118, R250: a step of the encoder writes the cache just when it processes a pixel that differs from `prev`, and
then one slot, with that pixel; no run pixel, no flush and no frame writes it. -/
def Obligations.CacheIsWrittenExactlyByRecords : Prop :=
  ∀ s t : State, s.host = [] → step s = .next t →
    (∀ p, s.phase = .pixels → s.pos < s.pixelCount → pixRead s.pos s = .ok p → p ≠ s.prev →
      ∀ k, cacheRead t.cache k = if k = pixelHash p then p else cacheRead s.cache k)
    ∧ (¬(s.phase = .pixels ∧ s.pos < s.pixelCount ∧ pixRead s.pos s ≠ .ok s.prev) → t.cache = s.cache ∧ t.prev = s.prev)

/-- R195, R173: the FLUSH step emits the pending run, if there is one, and goes on to FOOTER; the spec's example. -/
def Obligations.FlushStepEmitsThePendingRun : Prop :=
  (∀ s : State, s.host = [] → s.phase = .flush → s.run.toNat ≤ 61 → s.len + 1 ≤ s.cap →
    (s.run = 0 → step s = .next { s with phase := .footer })
    ∧ (s.run ≠ 0 → step s = .next { s with
        run := 0, phase := .footer, len := s.len + 1
        out := Memory.writeBytes s.out s.len [0xC0 ||| BitVec.ofNat 8 (s.run.toNat - 1)] }))
  ∧ encode (.run 38) = [0xE5]

/-- R53, R54: a step of the encoder only appends to OUT. Offsets below `len` and from the new `len` on keep what they held, and
every offset in between has been written. -/
def Obligations.OutputIsAppendOnly : Prop :=
  ∀ s t : State, s.host = [] → step s = .next t →
    s.len ≤ t.len
    ∧ (∀ a, a < s.len ∨ t.len ≤ a → Memory.read t.out a = Memory.read s.out a)
    ∧ (∀ a, s.len ≤ a → a < t.len → ∃ b, Memory.read t.out a = some b)
    ∧ (s.len < t.len → t.len ≤ t.cap)

/-- R53, R13: the block never reads OUT. Two states that differ in OUT only take steps that differ in OUT only, and append the
same bytes. -/
def Obligations.BlockNeverReadsItsOutput : Prop :=
  ∀ (s t : State) (m : Memory), s.host = [] → step s = .next t →
    ∃ m', step { s with out := m } = .next { t with out := m' }
      ∧ ∀ a, s.len ≤ a → a < t.len → Memory.read m' a = Memory.read t.out a

/-- R31, R50, R30, R32: a step of the encoder changes neither the latched inputs nor PIX nor `status`, and leaves the host's
moves alone. -/
def Obligations.EncoderKeepsItsInputs : Prop :=
  ∀ s t : State, s.host = [] → step s = .next t →
    t.w = s.w ∧ t.h = s.h ∧ t.npix = s.npix ∧ t.cap = s.cap ∧ t.pix = s.pix ∧ t.status = s.status ∧ t.host = []

/-- R26, R28, R156, R193 to R196: a step of the encoder moves `pos` by one just in a PIXEL step and never otherwise, and takes
the phases in their fixed order. -/
def Obligations.PhasesAndPositionOnlyMoveForward : Prop :=
  ∀ s t : State, s.host = [] → step s = .next t →
    (t.pos = if s.phase = .pixels ∧ s.pos < s.pixelCount then s.pos + 1 else s.pos)
    ∧ ((s.phase = .header ∧ t.phase = .pixels)
      ∨ (s.phase = .pixels ∧ s.pos < s.pixelCount ∧ t.phase = .pixels)
      ∨ (s.phase = .pixels ∧ s.pos = s.pixelCount ∧ t.phase = .flush)
      ∨ (s.phase = .flush ∧ t.phase = .footer)
      ∨ (s.phase = .footer ∧ t.phase = .done))

/-! ## START, errors, reset, the host -/

/-- R192, R236: a START that passes both checks, enabled in IDLE, DONE and FAILED, loads exactly these values and enters
HEADER. START as a step is the spec's decision D2; the queue of host moves is the model's (notes/assumptions/2.md). -/
def Obligations.StartLoadsTheInitialState : Prop :=
  ∀ (s : State) (i : StartInputs) (rest : List HostMove),
    s.phase = .idle ∨ s.phase = .done ∨ s.phase = .failed → s.host = .start i :: rest →
    i.npix = i.w.toNat * i.h.toNat → 5 * (i.w.toNat * i.h.toNat) + 22 ≤ i.cap →
    step s = .next {
      w := i.w, h := i.h, npix := i.npix, cap := i.cap, pix := i.pix
      prev := ⟨0, 0, 0, 255⟩, run := 0, cache := Vector.replicate 64 ⟨0, 0, 0, 0⟩
      pos := 0, len := 0, status := .ok, phase := .header, out := s.out, host := rest }

/-- R211, R212, R214, R217: a wrong pixel count, too few or too many, is reported first and whatever the capacity is; then a
short capacity; each error entry writes status, len, pos and phase and nothing else. The errors, their codes and their order are
the spec's own decisions (92_eei_decisions.md D1, D10, D11, D12, D20); the queue of host moves is the model's
(notes/assumptions/2.md). -/
def Obligations.StartErrorsWriteNothingElse : Prop :=
  ∀ (s : State) (i : StartInputs) (rest : List HostMove),
    s.phase = .idle ∨ s.phase = .done ∨ s.phase = .failed → s.host = .start i :: rest →
    (i.npix ≠ i.w.toNat * i.h.toNat →
      step s = .next { s with host := rest, status := .errInputLength, len := 0, pos := 0, phase := .failed })
    ∧ (i.npix = i.w.toNat * i.h.toNat → i.cap < 5 * (i.w.toNat * i.h.toNat) + 22 →
      step s = .next { s with host := rest, status := .errCapacity, len := 0, pos := 0, phase := .failed })
    ∧ Status.errCapacity.code = 1 ∧ Status.errInputLength.code = 2

/-- R243: a START that comes while the block is busy is no step: the encoder's own step is taken as if the host had no move,
and the START is still to come, with every move behind it, a reset included. The queue and its order are the model's
(notes/assumptions/2.md). -/
def Obligations.NoStartWhileBusy : Prop :=
  ∀ (s t : State) (i : StartInputs) (rest : List HostMove), s.phase.busy = true → s.host = .start i :: rest →
    (step s = .next t ↔ ∃ u, step { s with host := [] } = .next u ∧ t = { u with host := .start i :: rest })

/-- R235 (the spec's decision D13): reset, in any phase, sets phase, status, len and pos and does not touch OUT. That the first
move of the queue comes before the encoder's step, and that a reset behind a held START waits for it, is the model's choice
(notes/assumptions/2.md). -/
def Obligations.ResetFromAnyPhase : Prop :=
  ∀ (s : State) (rest : List HostMove), s.host = .reset :: rest →
    ∃ t, step s = .next t ∧ t.phase = .idle ∧ t.status = .ok ∧ t.len = 0 ∧ t.pos = 0 ∧ t.out = s.out ∧ t.host = rest

/-- R40: the state right after reset: IDLE, status 0, len 0, pos 0. That OUT has no value anywhere is the model's choice
(notes/assumptions/4.md). -/
def Obligations.ResetValues : Prop :=
  State.reset.phase = .idle ∧ State.reset.status.code = 0 ∧ State.reset.len = 0 ∧ State.reset.pos = 0
  ∧ ∀ a, Memory.read State.reset.out a = none

/-- R197, R203, R55: in IDLE, DONE and FAILED no step of the encoder is enabled (the fault's name is the model's,
notes/assumptions/6.md); the host sees LEN and status at DONE and FAILED, and OUT[0..LEN-1] at DONE only. -/
def Obligations.TerminalPhasesAndWhatTheHostSees : Prop :=
  ∀ s : State,
    (s.phase.busy = false → s.host = [] → step s = .fault .noStepEnabled)
    ∧ (s.phase = .done → hostLen s = some s.len ∧ hostStatus s = some s.status.code
        ∧ ∃ bytes, hostResult s = some bytes ∧ bytes.length = s.len
          ∧ ∀ k, k < s.len → bytes[k]? = some (Memory.read s.out k))
    ∧ (s.phase = .failed → hostLen s = some s.len ∧ hostStatus s = some s.status.code ∧ hostResult s = none)
    ∧ (s.phase.busy = true → hostLen s = none ∧ hostStatus s = none ∧ hostResult s = none ∧ hostPhase s = s.phase)

/-- R51, the spec's own reading (92_eei_decisions.md D14): the byte layout of PIX, r, g, b, a of pixel `i` at bytes
`4*i .. 4*i+3`. -/
def Obligations.PixelBytesAreRgba : Prop :=
  ∀ px : List Pixel,
    pixelsOfBytes (px.flatMap Pixel.toBytes) = some px
    ∧ ∀ i p, px[i]? = some p →
      (px.flatMap Pixel.toBytes)[4 * i]? = some p.r ∧ (px.flatMap Pixel.toBytes)[4 * i + 1]? = some p.g
      ∧ (px.flatMap Pixel.toBytes)[4 * i + 2]? = some p.b ∧ (px.flatMap Pixel.toBytes)[4 * i + 3]? = some p.a

/-! ## Invariants and whole encodes -/

/-- Every step, the host's moves included, keeps the machine's invariant (R23, R37, R38, R42, R65, R202; OUT in its canonical
form). -/
def Obligations.EveryStepKeepsTheInvariant : Prop :=
  ∀ s t : State, s.Inv → step s = .next t → t.Inv

/-- The state right after reset meets the invariant. -/
def Obligations.ResetMeetsTheInvariant : Prop := State.reset.Inv

/-- R221, R65, R202: in a consistent state a busy block always has a next step; every `PixRead` and every `Emit` is in
range. -/
def Obligations.BusyEncoderNeverFails : Prop :=
  ∀ s : State, s.Inv → s.phase.busy = true → ∃ t, step s = .next t

/-- R200, R221, R202, R198: a START that passes its checks, in any non-busy state of the block, is followed by exactly
`W*H + 4` steps to DONE, and OUT[0..LEN-1] is then the container of the functional form, LEN its length, within the bound;
OUT from LEN on is as it was. The cut into steps is the spec's decision D2; the queue of host moves is the model's
(notes/assumptions/2.md). -/
def Obligations.WholeEncodeIsTheFunctionalForm : Prop :=
  ∀ (s : State) (i : StartInputs), s.phase.busy = false → s.host = [.start i] → startCheck i = none →
    i.pix.length = i.npix →
    ∃ t, Host.Core.run core (1 + (i.w.toNat * i.h.toNat + 4)) s = .next t
      ∧ t.phase = .done ∧ t.status = .ok ∧ t.pos = i.w.toNat * i.h.toNat ∧ t.run = 0
      ∧ t.len = (encodeImage i.w i.h i.pix).length
      ∧ 22 ≤ t.len ∧ t.len ≤ 5 * (i.w.toNat * i.h.toNat) + 22
      ∧ (∀ k, k < t.len → Memory.read t.out k = (encodeImage i.w i.h i.pix)[k]?)
      ∧ (∀ a, t.len ≤ a → Memory.read t.out a = Memory.read s.out a)

/-- R202 and R198 of the functional form: the container's length is 14 bytes, the records and 8 bytes, at least 22 and at most
five bytes a pixel more. -/
def Obligations.ContainerLengthBound : Prop :=
  ∀ (w h : Dim) (px : List Pixel),
    (encodeImage w h px).length = 14 + (records px).length + 8
    ∧ 22 ≤ (encodeImage w h px).length ∧ (encodeImage w h px).length ≤ 5 * px.length + 22

/-- R38: after the HEADER step and `j` PIXEL steps of an encode, every slot holds the latest pixel of its hash that was not
absorbed into a run, or `(0,0,0,0)` if there is none; `prev` is the last pixel. -/
def Obligations.CacheHoldsTheLatestEmittedPixel : Prop :=
  ∀ (s : State) (i : StartInputs) (j : Nat), s.host = [] → startCheck i = none → i.pix.length = i.npix → j ≤ i.npix →
    ∃ t, Host.Core.run core (1 + j) (loadEncode i s) = .next t ∧ t.phase = .pixels ∧ t.pos = j
      ∧ (∀ k, cacheRead t.cache k = lastOfHash (i.pix.take j) k)
      ∧ t.prev = ((i.pix.take j).getLast?).getD ⟨0, 0, 0, 255⟩

/-- R39, R118 and 90_conflicts.md C3, C8, said of the functional form's cache (EveryStepKeepsTheEncodeOnTrack ties the machine's
to it): the initial `prev` stays out of it through a run of that value at the start of the image, and enters slot 53 only when
a pixel of that value is emitted by strategies 2 to 6. -/
def Obligations.InitialPrevEntersTheCacheOnlyWhenEmitted : Prop :=
  pixelHash Config.prevInit = 53
  ∧ (∀ m, cacheRead (codecAfter (List.replicate m Config.prevInit)).cache 53 = ⟨0, 0, 0, 0⟩)
  ∧ (∀ px, cacheRead (codecAfter px).cache 53 = Config.prevInit → Config.prevInit ∈ emittedFrom Config.prevInit px)

/-- R199: with a zero width or height, a START with no pixels and room for 22 bytes succeeds and four more steps write the header
with the given W and H and the footer, and nothing else; the spec's example. That START comes from the queue of host moves is
the model's (notes/assumptions/2.md). -/
def Obligations.ZeroDimensionsGiveHeaderAndFooter : Prop :=
  (∀ (s : State) (i : StartInputs), s.phase.busy = false → s.host = [.start i] → i.w = 0 ∨ i.h = 0 → i.npix = 0 → 22 ≤ i.cap →
    ∃ t, Host.Core.run core 5 s = .next t ∧ t.phase = .done ∧ t.status = .ok ∧ t.len = 22 ∧ t.run = 0
      ∧ (∀ k, k < 22 → Memory.read t.out k = (encode (.header i.w i.h) ++ encode .footer)[k]?)
      ∧ (∀ a, 22 ≤ a → Memory.read t.out a = Memory.read s.out a))
  ∧ encode (.header 0 5) ++ encode .footer
    = [0x71, 0x6F, 0x69, 0x66, 0, 0, 0, 0, 0, 0, 0, 5, 4, 0, 0, 0, 0, 0, 0, 0, 0, 1]

/-- R200, R38: every step, the host's moves included, keeps the encode on the track of the functional form: while the block is
busy and at DONE, `prev`, `run` and the cache are those of the pixels processed so far and OUT holds exactly their bytes. The cut
into steps is the spec's decision D2; the queue of host moves is the model's (notes/assumptions/2.md). -/
def Obligations.EveryStepKeepsTheEncodeOnTrack : Prop :=
  ∀ s t : State, s.Inv → s.OnTrack → step s = .next t → t.OnTrack

/-- The state right after reset, and the state that a successful START leaves, are on the track of the functional form (R192). -/
def Obligations.ResetAndStartAreOnTrack : Prop :=
  State.reset.OnTrack ∧ ∀ (s : State) (i : StartInputs), startCheck i = none → (startEncode i s).OnTrack
end

