-- ==== Sys2Proof/Laws/Operands.lean ====
section
/-! SUPPORT. What the wraparound-difference unit answers, and how the operands of DIFF and LUMA relate to the flags. -/

namespace Sys2Proof.Machine

/-- `sext_8` is the two's complement reading of the byte (00_scope.md R10). -/
theorem sext8_eq_toInt (v : Byte) : sext8 v = v.toInt := by
  have := v.isLt
  simp only [sext8, BitVec.toInt_eq_toNat_cond]
  split <;> split <;> omega

theorem sext8_bounds (v : Byte) : -128 ≤ sext8 v ∧ sext8 v ≤ 127 := by
  have := v.isLt
  simp only [sext8]
  split <;> omega

/-- A delta fits just when the ring difference lies in the window (41_wraparound.md R125). -/
theorem wrapDiff_eq_some {o c : Byte} {lo hi d : Int} :
    wrapDiff o c lo hi = some d ↔ d = sext8 (c - o) ∧ lo ≤ d ∧ d ≤ hi := by
  simp only [wrapDiff]
  split
  · next h => simp only [Option.some.injEq]; constructor <;> rintro h' <;> [subst h'; skip] <;> simp_all
  · next h => simp only [reduceCtorEq, false_iff]; rintro ⟨rfl, h'⟩; exact h h'

theorem wrapDiff_isSome (o c : Byte) (lo hi : Int) :
    (wrapDiff o c lo hi).isSome = (decide (lo ≤ sext8 (c - o)) && decide (sext8 (c - o) ≤ hi)) := by
  simp only [wrapDiff]
  split <;> simp_all

theorem diffOperands_eq_some {prev p : Pixel} {d : DiffOperands} :
    diffOperands prev p = some d ↔
      wrapDiff prev.r p.r Config.diffLo Config.diffHi = some d.dr
        ∧ wrapDiff prev.g p.g Config.diffLo Config.diffHi = some d.dg
        ∧ wrapDiff prev.b p.b Config.diffLo Config.diffHi = some d.db := by
  obtain ⟨dr, dg, db⟩ := d
  unfold diffOperands
  split <;> simp_all

theorem lumaOperands_eq_some {prev p : Pixel} {l : LumaOperands} :
    lumaOperands prev p = some l ↔
      wrapDiff prev.g p.g Config.lumaGLo Config.lumaGHi = some l.lg
        ∧ wrapDiff (lumaBase prev.r l.lg) p.r Config.lumaRBLo Config.lumaRBHi = some l.lr
        ∧ wrapDiff (lumaBase prev.b l.lg) p.b Config.lumaRBLo Config.lumaRBHi = some l.lb := by
  obtain ⟨lg, lr, lb⟩ := l
  unfold lumaOperands
  split
  · simp_all
  · next g hg =>
    split
    · simp_all
      rintro rfl
      simp_all
    · next h =>
      simp only [reduceCtorEq, false_iff]
      rintro ⟨e, h1, h2⟩
      rw [hg] at e
      cases e
      exact h _ _ h1 h2

end Sys2Proof.Machine
end

