-- ==== Sys2Proof/Laws/Memory.lean ====
section
/-! SUPPORT. Reading after writing in OUT, and that every write keeps the canonical form. -/

namespace Sys2Proof.Machine

@[simp] theorem Memory.read_write_same (m : Memory) (a : Nat) (b : Byte) :
    Memory.read (Memory.write m a b) a = some b := by
  induction m with
  | nil => simp [Memory.write, Memory.read]
  | cons c m ih =>
    obtain ⟨k, v⟩ := c
    simp only [Memory.write]
    split
    · simp [Memory.read]
    · split
      · simp [Memory.read]
      · next h => simp [Memory.read, Ne.symm h, ih]

theorem Memory.read_write_other (m : Memory) {a a' : Nat} (b : Byte) (h : a' ≠ a) :
    Memory.read (Memory.write m a b) a' = Memory.read m a' := by
  induction m with
  | nil => simp [Memory.write, Memory.read, Ne.symm h]
  | cons c m ih =>
    obtain ⟨k, v⟩ := c
    simp only [Memory.write]
    split
    · simp [Memory.read, Ne.symm h]
    · split
      · next e => subst e; simp [Memory.read, Ne.symm h]
      · simp [Memory.read, ih]

/-- Outside the written range nothing changes. -/
theorem Memory.read_writeBytes_outside (bs : List Byte) (m : Memory) {a a' : Nat}
    (h : a' < a ∨ a + bs.length ≤ a') :
    Memory.read (Memory.writeBytes m a bs) a' = Memory.read m a' := by
  induction bs generalizing m a with
  | nil => rfl
  | cons b bs ih =>
    simp only [List.length_cons] at h
    rw [Memory.writeBytes, ih _ (by omega), Memory.read_write_other _ _ (by omega)]

/-- Inside the written range the bytes stand in their order. -/
theorem Memory.read_writeBytes_inside (bs : List Byte) (m : Memory) (a k : Nat) (h : k < bs.length) :
    Memory.read (Memory.writeBytes m a bs) (a + k) = bs[k]? := by
  induction bs generalizing m a k with
  | nil => simp at h
  | cons b bs ih =>
    cases k with
    | zero =>
      rw [Memory.writeBytes, Memory.read_writeBytes_outside _ _ (by omega)]
      simp
    | succ k =>
      have := ih (Memory.write m a b) (a + 1) k (by simpa using h)
      rw [Memory.writeBytes, show a + (k + 1) = a + 1 + k by omega, this]
      simp

theorem Memory.writeBytes_append (bs cs : List Byte) (m : Memory) (a : Nat) :
    Memory.writeBytes m a (bs ++ cs) = Memory.writeBytes (Memory.writeBytes m a bs) (a + bs.length) cs := by
  induction bs generalizing m a with
  | nil => rfl
  | cons b bs ih =>
    simp only [List.cons_append, Memory.writeBytes, List.length_cons, ih]
    rw [show a + 1 + bs.length = a + (bs.length + 1) by omega]

theorem Memory.risingFrom_write (m : Memory) (lo a : Nat) (b : Byte) (hlo : lo < a)
    (h : Memory.risingFrom (some lo) m = true) : Memory.risingFrom (some lo) (Memory.write m a b) = true := by
  induction m generalizing lo with
  | nil => simp [Memory.write, Memory.risingFrom, hlo]
  | cons c m ih =>
    obtain ⟨k, v⟩ := c
    simp only [Memory.risingFrom, Bool.and_eq_true, decide_eq_true_eq] at h
    simp only [Memory.write]
    split
    · next hk => simp [Memory.risingFrom, hlo, hk, h.2]
    · split
      · next e => subst e; simp [Memory.risingFrom, h.1, h.2]
      · next h1 h2 => simp [Memory.risingFrom, h.1, ih k (by omega) h.2]

theorem Memory.rising_write (m : Memory) (a : Nat) (b : Byte) (h : Memory.risingFrom none m = true) :
    Memory.risingFrom none (Memory.write m a b) = true := by
  cases m with
  | nil => simp [Memory.write, Memory.risingFrom]
  | cons c m =>
    obtain ⟨k, v⟩ := c
    simp only [Memory.risingFrom] at h
    simp only [Memory.write]
    split
    · next hk => simp [Memory.risingFrom, hk, h]
    · split
      · next e => subst e; simpa [Memory.risingFrom] using h
      · exact Memory.risingFrom_write m k a b (by omega) h

/-- No entry equals what an unlisted offset reads as: here that is no value at all. -/
theorem Memory.entries_listed (m : Memory) : (m.all fun c => decide (some c.2 ≠ Memory.unlisted)) = true := by
  simp [Memory.unlisted]

theorem Memory.write_wf (m : Memory) (a : Nat) (b : Byte) (h : Memory.wf m = true) :
    Memory.wf (Memory.write m a b) = true := by
  simp only [Memory.wf, Bool.and_eq_true] at h ⊢
  exact ⟨Memory.rising_write m a b h.1, Memory.entries_listed _⟩

theorem Memory.writeBytes_wf (bs : List Byte) (m : Memory) (a : Nat) (h : Memory.wf m = true) :
    Memory.wf (Memory.writeBytes m a bs) = true := by
  induction bs generalizing m a with
  | nil => exact h
  | cons b bs ih => exact ih _ _ (Memory.write_wf m a b h)

theorem reset_out_wf : Memory.wf State.reset.out = true := rfl

end Sys2Proof.Machine
end

