-- ==== Sys2Proof/Laws/State.lean ====
section
/-! SUPPORT. What each shared update of the state does to each field, one lemma per field per update. -/

namespace Sys2Proof.Machine

@[simp] theorem commonUpdate_prev (p : Pixel) (s : State) : (commonUpdate p s).prev = p := rfl
@[simp] theorem commonUpdate_run (p : Pixel) (s : State) : (commonUpdate p s).run = s.run := rfl
@[simp] theorem commonUpdate_cache (p : Pixel) (s : State) : (commonUpdate p s).cache = cacheUpdate s.cache p := rfl
@[simp] theorem commonUpdate_pos (p : Pixel) (s : State) : (commonUpdate p s).pos = s.pos := rfl
@[simp] theorem commonUpdate_len (p : Pixel) (s : State) : (commonUpdate p s).len = s.len := rfl
@[simp] theorem commonUpdate_phase (p : Pixel) (s : State) : (commonUpdate p s).phase = s.phase := rfl
@[simp] theorem commonUpdate_status (p : Pixel) (s : State) : (commonUpdate p s).status = s.status := rfl
@[simp] theorem commonUpdate_w (p : Pixel) (s : State) : (commonUpdate p s).w = s.w := rfl
@[simp] theorem commonUpdate_h (p : Pixel) (s : State) : (commonUpdate p s).h = s.h := rfl
@[simp] theorem commonUpdate_npix (p : Pixel) (s : State) : (commonUpdate p s).npix = s.npix := rfl
@[simp] theorem commonUpdate_cap (p : Pixel) (s : State) : (commonUpdate p s).cap = s.cap := rfl
@[simp] theorem commonUpdate_pix (p : Pixel) (s : State) : (commonUpdate p s).pix = s.pix := rfl
@[simp] theorem commonUpdate_out (p : Pixel) (s : State) : (commonUpdate p s).out = s.out := rfl
@[simp] theorem commonUpdate_host (p : Pixel) (s : State) : (commonUpdate p s).host = s.host := rfl

@[simp] theorem appendOut_prev (bs : List Byte) (s : State) : (appendOut bs s).prev = s.prev := rfl
@[simp] theorem appendOut_run (bs : List Byte) (s : State) : (appendOut bs s).run = s.run := rfl
@[simp] theorem appendOut_cache (bs : List Byte) (s : State) : (appendOut bs s).cache = s.cache := rfl
@[simp] theorem appendOut_pos (bs : List Byte) (s : State) : (appendOut bs s).pos = s.pos := rfl
@[simp] theorem appendOut_len (bs : List Byte) (s : State) : (appendOut bs s).len = s.len + bs.length := rfl
@[simp] theorem appendOut_phase (bs : List Byte) (s : State) : (appendOut bs s).phase = s.phase := rfl
@[simp] theorem appendOut_status (bs : List Byte) (s : State) : (appendOut bs s).status = s.status := rfl
@[simp] theorem appendOut_w (bs : List Byte) (s : State) : (appendOut bs s).w = s.w := rfl
@[simp] theorem appendOut_h (bs : List Byte) (s : State) : (appendOut bs s).h = s.h := rfl
@[simp] theorem appendOut_npix (bs : List Byte) (s : State) : (appendOut bs s).npix = s.npix := rfl
@[simp] theorem appendOut_cap (bs : List Byte) (s : State) : (appendOut bs s).cap = s.cap := rfl
@[simp] theorem appendOut_pix (bs : List Byte) (s : State) : (appendOut bs s).pix = s.pix := rfl
@[simp] theorem appendOut_out (bs : List Byte) (s : State) : (appendOut bs s).out = Memory.writeBytes s.out s.len bs := rfl
@[simp] theorem appendOut_host (bs : List Byte) (s : State) : (appendOut bs s).host = s.host := rfl

@[simp] theorem raiseError_prev (e : EncodeError) (s : State) : (raiseError e s).prev = s.prev := rfl
@[simp] theorem raiseError_run (e : EncodeError) (s : State) : (raiseError e s).run = s.run := rfl
@[simp] theorem raiseError_cache (e : EncodeError) (s : State) : (raiseError e s).cache = s.cache := rfl
@[simp] theorem raiseError_pos (e : EncodeError) (s : State) : (raiseError e s).pos = 0 := rfl
@[simp] theorem raiseError_len (e : EncodeError) (s : State) : (raiseError e s).len = 0 := rfl
@[simp] theorem raiseError_phase (e : EncodeError) (s : State) : (raiseError e s).phase = .failed := rfl
@[simp] theorem raiseError_status (e : EncodeError) (s : State) : (raiseError e s).status = e.status := rfl
@[simp] theorem raiseError_w (e : EncodeError) (s : State) : (raiseError e s).w = s.w := rfl
@[simp] theorem raiseError_h (e : EncodeError) (s : State) : (raiseError e s).h = s.h := rfl
@[simp] theorem raiseError_npix (e : EncodeError) (s : State) : (raiseError e s).npix = s.npix := rfl
@[simp] theorem raiseError_cap (e : EncodeError) (s : State) : (raiseError e s).cap = s.cap := rfl
@[simp] theorem raiseError_pix (e : EncodeError) (s : State) : (raiseError e s).pix = s.pix := rfl
@[simp] theorem raiseError_out (e : EncodeError) (s : State) : (raiseError e s).out = s.out := rfl
@[simp] theorem raiseError_host (e : EncodeError) (s : State) : (raiseError e s).host = s.host := rfl

@[simp] theorem loadEncode_prev (i : StartInputs) (s : State) : (loadEncode i s).prev = Config.prevInit := rfl
@[simp] theorem loadEncode_run (i : StartInputs) (s : State) : (loadEncode i s).run = 0 := rfl
@[simp] theorem loadEncode_cache (i : StartInputs) (s : State) : (loadEncode i s).cache = cacheInit := rfl
@[simp] theorem loadEncode_pos (i : StartInputs) (s : State) : (loadEncode i s).pos = 0 := rfl
@[simp] theorem loadEncode_len (i : StartInputs) (s : State) : (loadEncode i s).len = 0 := rfl
@[simp] theorem loadEncode_phase (i : StartInputs) (s : State) : (loadEncode i s).phase = .header := rfl
@[simp] theorem loadEncode_status (i : StartInputs) (s : State) : (loadEncode i s).status = .ok := rfl
@[simp] theorem loadEncode_w (i : StartInputs) (s : State) : (loadEncode i s).w = i.w := rfl
@[simp] theorem loadEncode_h (i : StartInputs) (s : State) : (loadEncode i s).h = i.h := rfl
@[simp] theorem loadEncode_npix (i : StartInputs) (s : State) : (loadEncode i s).npix = i.npix := rfl
@[simp] theorem loadEncode_cap (i : StartInputs) (s : State) : (loadEncode i s).cap = i.cap := rfl
@[simp] theorem loadEncode_pix (i : StartInputs) (s : State) : (loadEncode i s).pix = i.pix := rfl
@[simp] theorem loadEncode_out (i : StartInputs) (s : State) : (loadEncode i s).out = s.out := rfl
@[simp] theorem loadEncode_host (i : StartInputs) (s : State) : (loadEncode i s).host = s.host := rfl

@[simp] theorem hostReset_prev (s : State) : (hostReset s).prev = Config.prevInit := rfl
@[simp] theorem hostReset_run (s : State) : (hostReset s).run = 0 := rfl
@[simp] theorem hostReset_cache (s : State) : (hostReset s).cache = cacheInit := rfl
@[simp] theorem hostReset_pos (s : State) : (hostReset s).pos = 0 := rfl
@[simp] theorem hostReset_len (s : State) : (hostReset s).len = 0 := rfl
@[simp] theorem hostReset_phase (s : State) : (hostReset s).phase = .idle := rfl
@[simp] theorem hostReset_status (s : State) : (hostReset s).status = .ok := rfl
@[simp] theorem hostReset_w (s : State) : (hostReset s).w = 0 := rfl
@[simp] theorem hostReset_h (s : State) : (hostReset s).h = 0 := rfl
@[simp] theorem hostReset_npix (s : State) : (hostReset s).npix = 0 := rfl
@[simp] theorem hostReset_cap (s : State) : (hostReset s).cap = 0 := rfl
@[simp] theorem hostReset_pix (s : State) : (hostReset s).pix = s.pix := rfl
@[simp] theorem hostReset_out (s : State) : (hostReset s).out = s.out := rfl
@[simp] theorem hostReset_host (s : State) : (hostReset s).host = s.host := rfl

@[simp] theorem countRun_prev (s : State) : (countRun s).prev = s.prev := rfl
@[simp] theorem countRun_run (s : State) : (countRun s).run = s.run + 1 := rfl
@[simp] theorem countRun_cache (s : State) : (countRun s).cache = s.cache := rfl
@[simp] theorem countRun_pos (s : State) : (countRun s).pos = s.pos := rfl
@[simp] theorem countRun_len (s : State) : (countRun s).len = s.len := rfl
@[simp] theorem countRun_phase (s : State) : (countRun s).phase = s.phase := rfl
@[simp] theorem countRun_status (s : State) : (countRun s).status = s.status := rfl
@[simp] theorem countRun_w (s : State) : (countRun s).w = s.w := rfl
@[simp] theorem countRun_h (s : State) : (countRun s).h = s.h := rfl
@[simp] theorem countRun_npix (s : State) : (countRun s).npix = s.npix := rfl
@[simp] theorem countRun_cap (s : State) : (countRun s).cap = s.cap := rfl
@[simp] theorem countRun_pix (s : State) : (countRun s).pix = s.pix := rfl
@[simp] theorem countRun_out (s : State) : (countRun s).out = s.out := rfl
@[simp] theorem countRun_host (s : State) : (countRun s).host = s.host := rfl

end Sys2Proof.Machine
end

