-- ==== Sys2Proof/Laws/Ops.lean ====
section
/-! SUPPORT. One specification lemma per shared operation: what it answers, and when. -/

namespace Sys2Proof.Machine

/-! ### Sequencing -/

@[simp] theorem andThen_next (s : State) (f : State → Result) : andThen (.next s) f = f s := rfl
@[simp] theorem andThen_fault (r : Fault) (f : State → Result) : andThen (.fault r) f = .fault r := rfl
@[simp] theorem andThen_refused (r : Refusal) (f : State → Result) : andThen (.refused r) f = .refused r := rfl

/-- The whole answers a next state just when both parts do. -/
theorem andThen_eq_next {o : Result} {f : State → Result} {t : State} :
    andThen o f = .next t ↔ ∃ u, o = .next u ∧ f u = .next t := by
  cases o <;> simp [andThen]

theorem andThen_assoc (o : Result) (f g : State → Result) :
    andThen (andThen o f) g = andThen o fun s => andThen (f s) g := by
  cases o <;> rfl

/-! ### OUT -/

theorem beBytes_length (n v : Nat) : (beBytes n v).length = n := by
  induction n with
  | zero => rfl
  | succ n ih => simp [beBytes, ih]

theorem beBytes_one (b : Byte) : beBytes 1 b.toNat = [b] := by simp [beBytes]

theorem emit_eq (b : Byte) (s : State) :
    emit b s = if s.len + 1 ≤ s.cap then .next (appendOut [b] s) else .fault .outBeyondCapacity := by
  unfold emit memWrite
  split
  · simp [beBytes_one, appendOut]
  · rfl

theorem appendOut_nil (s : State) : appendOut [] s = s := rfl

theorem appendOut_append (bs cs : List Byte) (s : State) :
    appendOut cs (appendOut bs s) = appendOut (bs ++ cs) s := by
  simp [appendOut, Memory.writeBytes_append, Nat.add_assoc]

/-- With room for them, all the bytes are appended. -/
theorem emitBytes_of_room (bs : List Byte) (s : State) (h : s.len + bs.length ≤ s.cap) :
    emitBytes bs s = .next (appendOut bs s) := by
  induction bs generalizing s with
  | nil => rfl
  | cons b bs ih =>
    simp only [List.length_cons] at h
    rw [emitBytes, emit_eq, if_pos (by omega), andThen_next, ih _ (by simp; omega), appendOut_append]
    rfl

/-- Without room for them, the machine stops. -/
theorem emitBytes_of_no_room (bs : List Byte) (s : State) (h : bs ≠ []) (hr : s.cap < s.len + bs.length) :
    emitBytes bs s = .fault .outBeyondCapacity := by
  induction bs generalizing s with
  | nil => exact absurd rfl h
  | cons b bs ih =>
    rw [emitBytes, emit_eq]
    split
    · next hb =>
      rw [andThen_next]
      cases bs with
      | nil => simp at hr; omega
      | cons c cs => exact ih _ (by simp) (by simp at hr ⊢; omega)
    · rfl

theorem emitBytes_eq_next {bs : List Byte} {s t : State} (h : emitBytes bs s = .next t) : t = appendOut bs s := by
  cases bs with
  | nil => simpa [emitBytes, appendOut_nil] using h.symm
  | cons b bs =>
    by_cases hr : s.len + (b :: bs).length ≤ s.cap
    · rw [emitBytes_of_room _ _ hr] at h
      simpa using h.symm
    · rw [emitBytes_of_no_room _ _ (by simp) (by omega)] at h
      simp at h

theorem emitBytes_append (bs cs : List Byte) (s : State) :
    emitBytes (bs ++ cs) s = andThen (emitBytes bs s) (emitBytes cs) := by
  induction bs generalizing s with
  | nil => rfl
  | cons b bs ih =>
    simp only [List.cons_append, emitBytes, andThen_assoc]
    congr 1
    funext t
    exact ih t

/-! ### PIX -/

theorem pixRead_ok {i : Nat} {s : State} {p : Pixel} :
    pixRead i s = .ok p ↔ i < s.npix ∧ s.pix[i]? = some p := by
  unfold pixRead
  split
  · split <;> simp_all
  · simp_all

theorem withPixel_of_ok {s : State} {p : Pixel} (h : pixRead s.pos s = .ok p) (f : Pixel → Result) :
    withPixel s f = f p := by
  simp [withPixel, h]

theorem withPixel_eq_next {s t : State} {f : Pixel → Result} (h : withPixel s f = .next t) :
    ∃ p, pixRead s.pos s = .ok p ∧ f p = .next t := by
  unfold withPixel at h
  split at h
  · exact ⟨_, ‹_›, h⟩
  · simp at h

/-! ### The cache -/

@[simp] theorem cacheRead_write_same (c : Cache) (k : Slot) (p : Pixel) : cacheRead (cacheWrite c k p) k = p := by
  simp [cacheRead, cacheWrite]

theorem cacheRead_write_other (c : Cache) {k j : Slot} (p : Pixel) (h : j ≠ k) :
    cacheRead (cacheWrite c k p) j = cacheRead c j := by
  have hn : k.toNat ≠ j.toNat := fun e => h (BitVec.eq_of_toNat_eq e.symm)
  simp [cacheRead, cacheWrite, hn]

@[simp] theorem cacheRead_init (k : Slot) : cacheRead cacheInit k = Config.cacheInitPixel := by
  simp [cacheRead, cacheInit]

/-- CacheUpdate writes one slot, that of the pixel's hash (40_hash_cache.md R114). -/
theorem cacheRead_update (c : Cache) (p : Pixel) (k : Slot) :
    cacheRead (cacheUpdate c p) k = if k = pixelHash p then p else cacheRead c k := by
  unfold cacheUpdate
  split
  · next h => subst h; simp
  · next h => exact cacheRead_write_other c p h

theorem cache_ext {c d : Cache} (h : ∀ k, cacheRead c k = cacheRead d k) : c = d := by
  apply Vector.ext
  intro i hi
  have := h (BitVec.ofNat 6 i)
  simpa [cacheRead, Nat.mod_eq_of_lt hi] using this

/-! ### Records -/

/-- With the current pixel readable and room for the bytes, a record completes. -/
theorem emitRecord_of_room {bytes : List Byte} {s : State} {p : Pixel} (hp : pixRead s.pos s = .ok p)
    (h : s.len + bytes.length ≤ s.cap) : emitRecord bytes s = .next (commonUpdate p (appendOut bytes s)) := by
  simp [emitRecord, withPixel_of_ok hp, emitBytes_of_room _ _ h]

/-- All that a record can do. -/
theorem emitRecord_eq_next {bytes : List Byte} {s t : State} (h : emitRecord bytes s = .next t) :
    ∃ p, pixRead s.pos s = .ok p ∧ t = commonUpdate p (appendOut bytes s) := by
  obtain ⟨p, hp, h⟩ := withPixel_eq_next h
  obtain ⟨u, hu, h⟩ := andThen_eq_next.1 h
  have := emitBytes_eq_next hu
  subst this
  exact ⟨p, hp, by simpa using h.symm⟩

end Sys2Proof.Machine
end

