-- ==== Sys2Proof/Laws/WellFormed.lean ====
section
/-! SUPPORT. The operand ranges as inequalities (30_encoding.md R86 to R88). -/

namespace Sys2Proof

@[simp] theorem inWindow_eq_true {lo hi d : Int} : inWindow lo hi d = true ↔ lo ≤ d ∧ d ≤ hi := by
  simp [inWindow]

theorem Instr.wf_diff {dr dg db : Int} :
    (Instr.diff dr dg db).wf = true ↔ (-2 ≤ dr ∧ dr ≤ 1) ∧ (-2 ≤ dg ∧ dg ≤ 1) ∧ (-2 ≤ db ∧ db ≤ 1) := by
  simp [Instr.wf, Config.diffLo, Config.diffHi, and_assoc]

theorem Instr.wf_luma {dg drdg dbdg : Int} :
    (Instr.luma dg drdg dbdg).wf = true ↔
      (-32 ≤ dg ∧ dg ≤ 31) ∧ (-8 ≤ drdg ∧ drdg ≤ 7) ∧ (-8 ≤ dbdg ∧ dbdg ≤ 7) := by
  simp [Instr.wf, Config.lumaGLo, Config.lumaGHi, Config.lumaRBLo, Config.lumaRBHi, and_assoc]

theorem Instr.wf_run {n : Nat} : (Instr.run n).wf = true ↔ 1 ≤ n ∧ n ≤ 62 := by
  simp [Instr.wf]

end Sys2Proof
end

