-- ==== Sys2Proof/Laws/Select.lean ====
section
/-! SUPPORT. Everything the selector can answer, and how the flags of 10_state.md R33 decide it. -/

namespace Sys2Proof.Machine

theorem wrapDiff_isSome_iff {o c : Byte} {lo hi : Int} :
    (wrapDiff o c lo hi).isSome = true ↔ wrapDiff o c lo hi = some (sext8 (c - o)) := by
  rw [Option.isSome_iff_exists]
  constructor
  · rintro ⟨d, h⟩
    rw [h, (wrapDiff_eq_some.1 h).1]
  · exact fun h => ⟨_, h⟩

theorem diffOperands_of_fits {prev p : Pixel} (h : diffFits prev p = true) :
    diffOperands prev p = some ⟨sext8 (p.r - prev.r), sext8 (p.g - prev.g), sext8 (p.b - prev.b)⟩ := by
  simp only [diffFits, fitDiff, Bool.and_eq_true, wrapDiff_isSome_iff] at h
  exact diffOperands_eq_some.2 ⟨h.1.1, h.1.2, h.2⟩

theorem diffOperands_of_not_fits {prev p : Pixel} (h : diffFits prev p = false) : diffOperands prev p = none := by
  cases e : diffOperands prev p with
  | none => rfl
  | some d =>
    obtain ⟨a, b, c⟩ := diffOperands_eq_some.1 e
    simp [diffFits, fitDiff, a, b, c] at h

theorem lumaOperands_of_fits {prev p : Pixel} (h : lumaFits prev p = true) :
    lumaOperands prev p = some ⟨sext8 (p.g - prev.g), sext8 (p.r - lumaBase prev.r (sext8 (p.g - prev.g))),
      sext8 (p.b - lumaBase prev.b (sext8 (p.g - prev.g)))⟩ := by
  simp only [lumaFits, fitLumaG, fitLumaRB, Bool.and_eq_true, wrapDiff_isSome_iff] at h
  exact lumaOperands_eq_some.2 ⟨h.1.1, h.1.2, h.2⟩

theorem lumaOperands_of_not_fits {prev p : Pixel} (h : lumaFits prev p = false) : lumaOperands prev p = none := by
  cases e : lumaOperands prev p with
  | none => rfl
  | some l =>
    obtain ⟨a, b, c⟩ := lumaOperands_eq_some.1 e
    have := (wrapDiff_eq_some.1 a).1
    simp [lumaFits, fitLumaG, fitLumaRB, ← this, a, b, c] at h

/-- The selector's five answers, each with the tests that led to it (42_strategy_select.md R152). -/
theorem selectRecord_cases (prev : Pixel) (c : Cache) (p : Pixel) :
    (hit c p = true ∧ selectRecord prev c p = .index (pixelHash p))
    ∨ (hit c p = false ∧ p.a = prev.a ∧ ∃ d, diffOperands prev p = some d ∧ selectRecord prev c p = .diff d.dr d.dg d.db)
    ∨ (hit c p = false ∧ p.a = prev.a ∧ diffOperands prev p = none
        ∧ ∃ l, lumaOperands prev p = some l ∧ selectRecord prev c p = .luma l.lg l.lr l.lb)
    ∨ (hit c p = false ∧ p.a = prev.a ∧ diffOperands prev p = none ∧ lumaOperands prev p = none
        ∧ selectRecord prev c p = .rgb p.r p.g p.b)
    ∨ (hit c p = false ∧ p.a ≠ prev.a ∧ selectRecord prev c p = .rgba p.r p.g p.b p.a) := by
  unfold selectRecord
  by_cases h : hit c p = true
  · simp [h]
  · by_cases ha : p.a = prev.a
    · cases diffOperands prev p <;> cases lumaOperands prev p <;> simp [h, ha, alphaSame]
    · simp [h, ha, alphaSame]

/-- Adding the delta to the original on the ring recovers the candidate (41_wraparound.md R129 item 1). -/
theorem add_delta (o c : Byte) : o + BitVec.ofInt 8 (sext8 (c - o)) = c := by
  rw [sext8_eq_toInt, BitVec.ofInt_toInt, BitVec.add_comm, BitVec.sub_add_cancel]

/-- The selected record is a record whose meaning is its bytes and the common update, and is 1 to 5 bytes long. -/
theorem exec_selectRecord (prev : Pixel) (c : Cache) (p : Pixel) (s : State) :
    exec (selectRecord prev c p) s = emitRecord (encode (selectRecord prev c p)) s
      ∧ 1 ≤ (encode (selectRecord prev c p)).length ∧ (encode (selectRecord prev c p)).length ≤ 5 := by
  rcases selectRecord_cases prev c p with ⟨_, e⟩ | ⟨_, _, d, hd, e⟩ | ⟨_, _, _, l, hl, e⟩ | ⟨_, _, _, _, e⟩ | ⟨_, _, e⟩
    <;> rw [e]
  · exact ⟨rfl, by simp [encode], by simp [encode]⟩
  · obtain ⟨hr, hg, hb⟩ := diffOperands_eq_some.1 hd
    have hw : (Instr.diff d.dr d.dg d.db).wf = true :=
      Instr.wf_diff.2 ⟨(wrapDiff_eq_some.1 hr).2, (wrapDiff_eq_some.1 hg).2, (wrapDiff_eq_some.1 hb).2⟩
    exact ⟨by simp [exec, execDiff, hw, encode], by simp [encode], by simp [encode]⟩
  · obtain ⟨hg, hr, hb⟩ := lumaOperands_eq_some.1 hl
    have hw : (Instr.luma l.lg l.lr l.lb).wf = true :=
      Instr.wf_luma.2 ⟨(wrapDiff_eq_some.1 hg).2, (wrapDiff_eq_some.1 hr).2, (wrapDiff_eq_some.1 hb).2⟩
    exact ⟨by simp [exec, execLuma, hw, encode], by simp [encode], by simp [encode]⟩
  · exact ⟨rfl, by simp [encode], by simp [encode]⟩
  · exact ⟨rfl, by simp [encode], by simp [encode]⟩

/-- HEADER as one list of bytes: its four writes abut. -/
theorem exec_header_eq (w h : Dim) (s : State) :
    exec (.header w h) s = andThen (emitBytes (encode (.header w h)) s) fun t => .next { t with phase := .pixels } := by
  simp only [exec, execHeader, encode, writeBE32, emitBytes_append, andThen_assoc]

end Sys2Proof.Machine
end

