-- ==== Sys2Proof/Laws/Step.lean ====
section
/-! SUPPORT. Everything one step can do, said once: later proofs cite these and do not unfold the step. -/

namespace Sys2Proof.Machine

theorem execRun_eq_next {n : Nat} {s t : State} (h : exec (.run n) s = .next t) :
    1 ≤ n ∧ n ≤ 62 ∧ t = { appendOut [runByte n] s with run := 0 } := by
  simp only [exec, execRun] at h
  split at h
  · next hw =>
    obtain ⟨u, hu, h⟩ := andThen_eq_next.1 h
    obtain rfl := emitBytes_eq_next hu
    exact ⟨(Instr.wf_run.1 hw).1, (Instr.wf_run.1 hw).2, by simpa using h.symm⟩
  · simp at h

theorem execRun_of_room {n : Nat} {s : State} (h1 : 1 ≤ n) (h2 : n ≤ 62) (h : s.len + 1 ≤ s.cap) :
    exec (.run n) s = .next { appendOut [runByte n] s with run := 0 } := by
  simp [exec, execRun, Instr.wf_run.2 ⟨h1, h2⟩, emitBytes_of_room [runByte n] s h]

/-- The pending run's byte, if there is one. -/
def pendingByte (s : State) : List Byte := if s.run = 0 then [] else [runByte s.run.toNat]

theorem flushPending_eq_next {s t : State} (h : flushPending s = .next t) :
    s.run.toNat ≤ 62 ∧ t = { appendOut (pendingByte s) s with run := 0 } := by
  unfold flushPending runPending at h
  by_cases hr : s.run = 0
  · simp only [hr, ne_eq, not_true_eq_false, decide_false, Bool.false_eq_true, if_false, Host.Outcome.next.injEq] at h
    subst h
    obtain ⟨prev, run, cache, pos, len, phase, status, w, h, npix, cap, pix, out, host⟩ := s
    simp only at hr
    subst hr
    exact ⟨Nat.zero_le _, rfl⟩
  · simp only [hr, ne_eq, not_false_eq_true, decide_true, if_true, flushRun] at h
    obtain ⟨_, h2, h⟩ := execRun_eq_next h
    exact ⟨h2, by rw [h, pendingByte, if_neg hr]⟩

theorem flushPending_of_room {s : State} (h1 : s.run.toNat ≤ 62) (h : s.len + (pendingByte s).length ≤ s.cap) :
    flushPending s = .next { appendOut (pendingByte s) s with run := 0 } := by
  unfold flushPending runPending
  by_cases hr : s.run = 0
  · obtain ⟨prev, run, cache, pos, len, phase, status, w, h, npix, cap, pix, out, host⟩ := s
    simp only at hr
    subst hr
    rfl
  · have hn : 1 ≤ s.run.toNat := by
      rcases Nat.eq_zero_or_pos s.run.toNat with h0 | h0
      · exact absurd (BitVec.eq_of_toNat_eq (by simpa using h0)) hr
      · exact h0
    simp only [pendingByte, if_neg hr] at h ⊢
    simp only [hr, ne_eq, not_false_eq_true, decide_true, if_true, flushRun]
    exact execRun_of_room hn h1 h

theorem runAtCap_countRun (s : State) : runAtCap (countRun s) = decide (s.run.toNat = 61) := by
  have hb := s.run.isLt
  have hs : (countRun s).run.toNat = (s.run.toNat + 1) % 64 := by simp [BitVec.toNat_add]
  unfold runAtCap
  rw [decide_eq_decide, hs]
  show _ = 62 ↔ _
  omega

theorem extendRun_below_cap {s : State} (h : s.run.toNat ≠ 61) : extendRun s = .next (countRun s) := by
  rw [extendRun, runAtCap_countRun, if_neg (by simpa using h)]

theorem extendRun_at_cap {s : State} (h : s.run.toNat = 61) : extendRun s = exec (.run 62) (countRun s) := by
  have hs : (countRun s).run.toNat = 62 := by simp [BitVec.toNat_add, h]
  rw [extendRun, runAtCap_countRun, if_pos (by simpa using h), flushRun, hs]

theorem pixelBody_eq (p : Pixel) (s : State) :
    pixelBody p s = if p = s.prev then extendRun s
      else andThen (flushPending s) fun t => exec (selectRecord t.prev t.cache p) t := by
  by_cases h : p = s.prev <;> simp [pixelBody, eqPrev, h]

/-- All that a PIXEL step can do (42_strategy_select.md R140): extend the run, flush it at the cap, or emit the selected record
with the pending run's byte in front. -/
theorem pixelStep_eq_next {s t : State} (h : pixelStep s = .next t) :
    ∃ p, pixRead s.pos s = .ok p
      ∧ ((p = s.prev ∧ s.run.toNat ≠ 61 ∧ t = { s with run := s.run + 1, pos := s.pos + 1 })
        ∨ (p = s.prev ∧ s.run.toNat = 61 ∧ t = { appendOut [runByte 62] s with run := 0, pos := s.pos + 1 })
        ∨ (p ≠ s.prev ∧ s.run.toNat ≤ 62
          ∧ t = { commonUpdate p (appendOut (pendingByte s ++ encode (selectRecord s.prev s.cache p)) s) with
              run := 0, pos := s.pos + 1 })) := by
  obtain ⟨p, hp, h⟩ := withPixel_eq_next h
  obtain ⟨u, hu, ht⟩ := andThen_eq_next.1 h
  refine ⟨p, hp, ?_⟩
  simp only [advancePos, Host.Outcome.next.injEq] at ht
  subst ht
  rw [pixelBody_eq] at hu
  by_cases he : p = s.prev
  · rw [if_pos he] at hu
    by_cases h61 : s.run.toNat = 61
    · rw [extendRun_at_cap h61] at hu
      exact .inr (.inl ⟨he, h61, by rw [(execRun_eq_next hu).2.2]; rfl⟩)
    · rw [extendRun_below_cap h61] at hu
      exact .inl ⟨he, h61, by cases hu; rfl⟩
  · rw [if_neg he] at hu
    obtain ⟨v, hv, hu⟩ := andThen_eq_next.1 hu
    obtain ⟨h62, rfl⟩ := flushPending_eq_next hv
    rw [(exec_selectRecord _ _ _ _).1] at hu
    obtain ⟨q, hq, rfl⟩ := emitRecord_eq_next hu
    obtain rfl : p = q := Except.ok.inj (hp.symm.trans hq)
    exact .inr (.inr ⟨he, h62, by rw [← appendOut_append]; rfl⟩)

/-- With `run` in its range, the pixel readable and room for the step's bytes, a PIXEL step completes. -/
theorem pixelStep_of_room {s : State} {p : Pixel} (hp : pixRead s.pos s = .ok p) (hr : s.run.toNat ≤ 61)
    (hroom : s.len + (if p = s.prev then (if s.run.toNat = 61 then 1 else 0)
      else (pendingByte s).length + (encode (selectRecord s.prev s.cache p)).length) ≤ s.cap) :
    ∃ t, pixelStep s = .next t := by
  suffices hs : ∃ u, pixelBody p s = .next u by
    obtain ⟨u, hu⟩ := hs
    exact ⟨_, by rw [pixelStep, withPixel_of_ok hp, hu]; rfl⟩
  rw [pixelBody_eq]
  by_cases he : p = s.prev
  · rw [if_pos he] at hroom ⊢
    by_cases h61 : s.run.toNat = 61
    · rw [if_pos h61] at hroom
      rw [extendRun_at_cap h61]
      exact ⟨_, execRun_of_room (s := countRun s) (by omega) (by omega) hroom⟩
    · exact ⟨_, extendRun_below_cap h61⟩
  · rw [if_neg he] at hroom ⊢
    rw [flushPending_of_room (by omega) (by omega), andThen_next, (exec_selectRecord _ _ _ _).1]
    have hp' : pixRead s.pos { appendOut (pendingByte s) s with run := 0 } = .ok p := hp
    exact ⟨_, emitRecord_of_room hp'
      (by simp only [appendOut_len, appendOut_cap, appendOut_prev, appendOut_cache]; omega)⟩

/-- All that a step of the encoder can do, phase by phase (44_framing.md R193 to R196). -/
theorem encoderStep_eq_next {s t : State} (h : encoderStep s = .next t) :
    (s.phase = .header ∧ t = { appendOut (encode (.header s.w s.h)) s with phase := .pixels })
    ∨ (s.phase = .pixels ∧ s.pos < s.pixelCount ∧ pixelStep s = .next t)
    ∨ (s.phase = .pixels ∧ s.pos = s.pixelCount ∧ t = { s with phase := .flush })
    ∨ (s.phase = .flush ∧ s.run.toNat ≤ 62 ∧ t = { appendOut (pendingByte s) s with run := 0, phase := .footer })
    ∨ (s.phase = .footer ∧ t = { appendOut (encode .footer) s with phase := .done }) := by
  unfold encoderStep at h
  split at h
  · next hph =>
    rw [exec_header_eq] at h
    obtain ⟨u, hu, h⟩ := andThen_eq_next.1 h
    obtain rfl := emitBytes_eq_next hu
    exact .inl ⟨hph, by simpa using h.symm⟩
  · next hph =>
    unfold pixelsPhase at h
    split at h
    · exact .inr (.inl ⟨hph, ‹_›, h⟩)
    · split at h
      · exact .inr (.inr (.inl ⟨hph, ‹_›, by simpa using h.symm⟩))
      · simp at h
  · next hph =>
    obtain ⟨u, hu, h⟩ := andThen_eq_next.1 h
    obtain ⟨h62, rfl⟩ := flushPending_eq_next hu
    exact .inr (.inr (.inr (.inl ⟨hph, h62, by simpa using h.symm⟩)))
  · next hph =>
    simp only [exec, execFooter] at h
    obtain ⟨u, hu, h⟩ := andThen_eq_next.1 h
    obtain rfl := emitBytes_eq_next hu
    exact .inr (.inr (.inr (.inr ⟨hph, (Host.Outcome.next.inj h).symm⟩)))
  all_goals simp at h

/-- With no move of the host to come, the step is the encoder's. -/
theorem step_of_no_host {s : State} (h : s.host = []) : step s = encoderStep s := by
  simp [step, machineStep, h]

/-- All that a step can do: a reset, a START in a phase that is not busy, a turn in which the host does nothing, or a step of
the encoder (44_framing.md R192, 70_reset_and_hazards.md R235, R243). -/
theorem step_eq_next {s t : State} (h : step s = .next t) :
    (∃ rest, s.host = .reset :: rest ∧ t = hostReset { s with host := rest })
    ∨ (∃ i rest, s.host = .start i :: rest ∧ s.phase.busy = false ∧ t = startEncode i { s with host := rest })
    ∨ (∃ rest, s.host = .wait :: rest ∧ s.phase.busy = false ∧ t = { s with host := rest })
    ∨ (∃ rest, s.host = .wait :: rest ∧ encoderStep { s with host := rest } = .next t)
    ∨ ((∀ m rest, s.host = m :: rest → ∃ i, m = .start i) ∧ encoderStep s = .next t) := by
  unfold step machineStep at h
  split at h
  · next hh => exact .inr (.inr (.inr (.inr ⟨by simp [hh], h⟩)))
  · next rest hh => exact .inl ⟨rest, hh, by simpa using h.symm⟩
  · next rest hh =>
    unfold encoderTurn at h
    split at h
    · exact .inr (.inr (.inr (.inl ⟨rest, hh, h⟩)))
    · next hb => exact .inr (.inr (.inl ⟨rest, hh, by simpa using hb, by simpa using h.symm⟩))
  · next i rest hh =>
    split at h
    · exact .inr (.inr (.inr (.inr ⟨by simp [hh], h⟩)))
    · next hb => exact .inr (.inl ⟨i, rest, hh, by simpa using hb, by simpa using h.symm⟩)

end Sys2Proof.Machine
end

