-- ==== Sys2Proof/Laws/Invariant.lean ====
section
/-! SUPPORT. Lemmas about the parts of the invariant, about room in OUT, about the functional form of one PIXEL step, and about
runs of several steps. -/

namespace Sys2Proof.Machine

/-! ### Room in OUT -/

/-- Bytes that have been emitted had room. -/
theorem emitBytes_room {bs : List Byte} {s t : State} (h : emitBytes bs s = .next t) :
    bs = [] ∨ s.len + bs.length ≤ s.cap := by
  by_cases hb : bs = []
  · exact .inl hb
  · refine .inr ?_
    by_contra hr
    rw [emitBytes_of_no_room _ _ hb (by omega)] at h
    simp at h

theorem execRun_room {n : Nat} {s t : State} (h : exec (.run n) s = .next t) : s.len + 1 ≤ s.cap := by
  simp only [exec, execRun] at h
  split at h
  · obtain ⟨u, hu, h⟩ := andThen_eq_next.1 h
    exact (emitBytes_room hu).resolve_left (by simp)
  · simp at h

theorem emitRecord_room {bs : List Byte} {s t : State} (hb : bs ≠ []) (h : emitRecord bs s = .next t) :
    s.len + bs.length ≤ s.cap := by
  obtain ⟨_, _, h⟩ := withPixel_eq_next h
  obtain ⟨_, hu, _⟩ := andThen_eq_next.1 h
  exact (emitBytes_room hu).resolve_left hb

/-- Every offset from the old `len` to the new one has been written. -/
theorem read_appendOut_listed (bs : List Byte) (s : State) {a : Nat} (h1 : s.len ≤ a) (h2 : a < (appendOut bs s).len) :
    ∃ b, Memory.read (appendOut bs s).out a = some b := by
  rw [appendOut_len] at h2
  obtain ⟨k, rfl⟩ : ∃ k, a = s.len + k := ⟨a - s.len, by omega⟩
  refine ⟨bs[k]'(by omega), ?_⟩
  rw [appendOut_out, Memory.read_writeBytes_inside _ _ _ _ (by omega), List.getElem?_eq_getElem]

/-- What a step of the encoder does to OUT and to the latched inputs. -/
theorem encoderStep_out {s t : State} (h : encoderStep s = .next t) :
    ∃ bs, t.out = Memory.writeBytes s.out s.len bs ∧ t.len = s.len + bs.length ∧ t.w = s.w ∧ t.h = s.h
      ∧ t.npix = s.npix ∧ t.cap = s.cap ∧ t.pix = s.pix ∧ t.status = s.status ∧ t.host = s.host := by
  rcases encoderStep_eq_next h with ⟨_, rfl⟩ | ⟨_, _, h⟩ | ⟨_, _, rfl⟩ | ⟨_, _, rfl⟩ | ⟨_, rfl⟩
  · exact ⟨_, rfl, rfl, rfl, rfl, rfl, rfl, rfl, rfl, rfl⟩
  · obtain ⟨p, hp, ⟨_, _, rfl⟩ | ⟨_, _, rfl⟩ | ⟨_, _, rfl⟩⟩ := pixelStep_eq_next h
    · exact ⟨[], rfl, rfl, rfl, rfl, rfl, rfl, rfl, rfl, rfl⟩
    · exact ⟨_, rfl, rfl, rfl, rfl, rfl, rfl, rfl, rfl, rfl⟩
    · exact ⟨_, rfl, rfl, rfl, rfl, rfl, rfl, rfl, rfl, rfl⟩
  · exact ⟨[], rfl, rfl, rfl, rfl, rfl, rfl, rfl, rfl, rfl⟩
  · exact ⟨_, rfl, rfl, rfl, rfl, rfl, rfl, rfl, rfl, rfl⟩
  · exact ⟨_, rfl, rfl, rfl, rfl, rfl, rfl, rfl, rfl, rfl⟩

/-! ### Parts of the invariant -/

theorem consistent_init : Cache.consistent cacheInit := fun k => .inl (cacheRead_init k)

theorem consistent_update {c : Cache} (h : Cache.consistent c) (p : Pixel) : Cache.consistent (cacheUpdate c p) := by
  intro k
  rw [cacheRead_update]
  split
  · next e => exact .inr e.symm
  · exact h k

theorem owed_eq (s : State) : s.owed = (pendingByte s).length := by
  unfold State.owed runPending pendingByte
  by_cases h : s.run = 0
  · simp [h]
  · rw [if_neg h]
    simp only [ne_eq, h, not_false_eq_true, decide_true, if_true, List.length_singleton]

theorem owed_of_no_run {s : State} (h : s.run = 0) : s.owed = 0 := by
  rw [owed_eq]
  simp [pendingByte, h]

theorem owed_le (s : State) : s.owed ≤ 1 := by
  rw [owed_eq]
  unfold pendingByte
  split <;> simp

theorem startCheck_eq_none {i : StartInputs} :
    startCheck i = none ↔ i.npix = i.pixelCount ∧ Config.capMin i.pixelCount ≤ i.cap := by
  unfold startCheck
  by_cases h : i.npix = i.pixelCount <;> by_cases hc : i.cap < Config.capMin i.pixelCount <;> simp [h]

/-! ### The functional form of one PIXEL step (44_framing.md R200) -/

/-- The part of the state that the functional form threads. -/
def State.codec (s : State) : CodecState := ⟨s.prev, s.run.toNat, s.cache⟩

theorem pendingRun_eq (s : State) : pendingRun s.run.toNat = pendingByte s := by
  unfold pendingRun pendingByte
  by_cases h0 : s.run = 0
  · simp [h0]
  · have : 0 < s.run.toNat := by
      rcases Nat.eq_zero_or_pos s.run.toNat with h | h
      · exact absurd (BitVec.eq_of_toNat_eq (by simpa using h)) h0
      · exact h
    simp only [gt_iff_lt, this, if_neg h0, if_true]
    rfl

/-- A PIXEL step appends the bytes of the functional form and leaves its state. -/
theorem pixelStep_codec {s t : State} (hr : s.run.toNat ≤ 61) (hs : pixelStep s = .next t) :
    ∃ p, pixRead s.pos s = .ok p
      ∧ t = { appendOut (codecBytes s.codec p) s with pos := s.pos + 1, prev := t.prev, run := t.run, cache := t.cache }
      ∧ t.codec = codecNext s.codec p := by
  obtain ⟨p, hq, hc⟩ := pixelStep_eq_next hs
  refine ⟨p, hq, ?_⟩
  rcases hc with ⟨he, h61, rfl⟩ | ⟨he, h61, rfl⟩ | ⟨he, _, rfl⟩
  · have e1 : codecBytes s.codec p = [] := by simp [codecBytes, State.codec, eqPrev, he, Config.runMax, h61]
    rw [e1]
    refine ⟨rfl, ?_⟩
    simp [codecNext, State.codec, eqPrev, he, Config.runMax, h61]
    omega
  · have e1 : codecBytes s.codec p = [runByte 62] := by
      simp [codecBytes, State.codec, eqPrev, he, Config.runMax, h61, encode]
    rw [e1]
    refine ⟨rfl, ?_⟩
    simp [codecNext, State.codec, eqPrev, he, Config.runMax, h61]
  · have e1 : codecBytes s.codec p = pendingByte s ++ encode (selectRecord s.prev s.cache p) := by
      simp [codecBytes, State.codec, eqPrev, he, pendingRun_eq]
    rw [e1]
    refine ⟨rfl, ?_⟩
    simp [codecNext, State.codec, eqPrev, he]

/-- The bytes of one pixel more. -/
theorem emittedBytes_append (c : CodecState) (ps : List Pixel) (p : Pixel) :
    emittedBytes c (ps ++ [p]) = emittedBytes c ps ++ codecBytes (ps.foldl codecNext c) p := by
  induction ps generalizing c with
  | nil => simp [emittedBytes]
  | cons q ps ih => simp [emittedBytes, ih]

/-- The record stream is the bytes of the pixels and the final flush. -/
theorem recordsFrom_eq (c : CodecState) (ps : List Pixel) :
    recordsFrom c ps = emittedBytes c ps ++ pendingRun (ps.foldl codecNext c).run := by
  induction ps generalizing c with
  | nil => simp [emittedBytes, recordsFrom]
  | cons q ps ih => simp [emittedBytes, recordsFrom, ih]

theorem codecAfter_append (ps : List Pixel) (p : Pixel) :
    codecAfter (ps ++ [p]) = codecNext (codecAfter ps) p := by
  simp [codecAfter]

/-- OUT below `len` after bytes have been appended to it. -/
theorem read_append {s : State} {cs : List Byte} (bs : List Byte) (hl : s.len = cs.length)
    (h : ∀ k, k < s.len → Memory.read s.out k = cs[k]?) :
    ∀ k, k < s.len + bs.length → Memory.read (Memory.writeBytes s.out s.len bs) k = (cs ++ bs)[k]? := by
  intro k hk
  by_cases h1 : k < s.len
  · rw [Memory.read_writeBytes_outside _ _ (.inl h1), h k h1, List.getElem?_append_left (by omega)]
  · obtain ⟨j, rfl⟩ : ∃ j, k = s.len + j := ⟨k - s.len, by omega⟩
    rw [Memory.read_writeBytes_inside _ _ _ _ (by omega), List.getElem?_append_right (by omega)]
    congr 1
    omega

/-! ### Several steps -/

theorem run_one (s : State) : Host.Core.run core 1 s = step s := by
  simp only [Host.Core.run]
  rw [show step s = core.step s from rfl]
  cases h : core.step s <;> rfl

/-- `j + k` steps are `j` steps and then `k` steps. -/
theorem run_add_of_next {j k : Nat} {s t : State} (h : Host.Core.run core j s = .next t) :
    Host.Core.run core (j + k) s = Host.Core.run core k t := by
  induction j generalizing s with
  | zero =>
    cases h
    simp
  | succ j ih =>
    rw [Nat.succ_add]
    simp only [Host.Core.run] at h ⊢
    cases e : core.step s with
    | next u =>
      rw [e] at h
      exact ih h
    | fault r =>
      rw [e] at h
      cases h
    | refused r =>
      rw [e] at h
      cases h

end Sys2Proof.Machine
end

