-- ==== Sys2Proof/Laws/PerInstr.lean ====
section
/-! SUPPORT. Statements for all instructions, one lemma per constructor. -/

namespace Sys2Proof.Laws.EncodedLength

/-- The encoding has the length that 30_encoding.md R80 gives the instruction. -/
def Statement (i : Instr) : Prop := (encode i).length = i.size

theorem index (k : Slot) : Statement (.index k) := rfl
theorem diff (dr dg db : Int) : Statement (.diff dr dg db) := rfl
theorem luma (dg drdg dbdg : Int) : Statement (.luma dg drdg dbdg) := rfl
theorem run (n : Nat) : Statement (.run n) := rfl
theorem rgb (r g b : Byte) : Statement (.rgb r g b) := rfl
theorem rgba (r g b a : Byte) : Statement (.rgba r g b a) := rfl
theorem header (w h : Dim) : Statement (.header w h) := rfl
theorem footer : Statement .footer := rfl

end Sys2Proof.Laws.EncodedLength
end

