-- ==== Sys2Proof/Tests/Slice0.lean ====
section
/-! SUPPORT. The model's own tests: expected values from spec/95_test_vectors.md and the worked examples of the rules. -/

namespace Sys2Proof.Tests.Slice0

open Sys2Proof Sys2Proof.Machine

/-! ### WellFormed refuses an ill-formed term for each check -/

theorem test_wf_diff_red : (Instr.diff 2 0 0).wf = false := by decide
theorem test_wf_diff_green : (Instr.diff 0 (-3) 0).wf = false := by decide
theorem test_wf_diff_blue : (Instr.diff 0 0 2).wf = false := by decide
theorem test_wf_luma_green : (Instr.luma 32 0 0).wf = false := by decide
theorem test_wf_luma_red : (Instr.luma 0 8 0).wf = false := by decide
theorem test_wf_luma_blue : (Instr.luma 0 0 (-9)).wf = false := by decide
theorem test_wf_run_low : (Instr.run 0).wf = false := by decide
theorem test_wf_run_high : (Instr.run 63).wf = false := by decide
theorem test_wf_edges : (Instr.diff (-2) 1 (-2)).wf = true ∧ (Instr.luma (-32) 7 (-8)).wf = true
    ∧ (Instr.luma 31 (-8) 7).wf = true ∧ (Instr.run 1).wf = true ∧ (Instr.run 62).wf = true := by decide

/-! ### Decoding: words written out bit by bit from 30_encoding.md -/

/-- R85, 95_test_vectors.md V3: `00 111111`. -/
theorem test_decode_index : decode .records [0b00111111] = .ok (.index 63, []) := by decide
/-- R86: `01 rr gg bb` with (-2, +1, +1), 95_test_vectors.md V4 byte 4F. -/
theorem test_decode_diff : decode .records [0b01001111] = .ok (.diff (-2) 1 1, []) := by decide
/-- R87: `10 gggggg`, `rrrr bbbb` with (31, -8, 7), 95_test_vectors.md V5.1 bytes BF 0F. -/
theorem test_decode_luma : decode .records [0b10111111, 0b00001111] = .ok (.luma 31 (-8) 7, []) := by decide
/-- R88: `11 nnnnnn` with n = 62, byte FD. -/
theorem test_decode_run : decode .records [0b11111101] = .ok (.run 62, []) := by decide
/-- R89. -/
theorem test_decode_rgb : decode .records [0b11111110, 1, 2, 3, 9] = .ok (.rgb 1 2 3, [9]) := by decide
/-- R90. -/
theorem test_decode_rgba : decode .records [0b11111111, 1, 2, 3, 4] = .ok (.rgba 1 2 3 4, []) := by decide
/-- R91: width 4, height 2 (95_test_vectors.md P3). -/
theorem test_decode_header :
    decode .header [0x71, 0x6F, 0x69, 0x66, 0, 0, 0, 4, 0, 0, 0, 2, 4, 0] = .ok (.header 4 2, []) := by decide
/-- R92. -/
theorem test_decode_footer : decode .footer [0, 0, 0, 0, 0, 0, 0, 1] = .ok (.footer, []) := by decide

theorem test_decode_truncated : decode .records [0x80] = .error .truncated := by decide
theorem test_decode_bad_magic :
    decode .header [0x71, 0x6F, 0x69, 0x67, 0, 0, 0, 4, 0, 0, 0, 2, 4, 0] = .error .badMagic := by decide
theorem test_decode_bad_channels :
    decode .header [0x71, 0x6F, 0x69, 0x66, 0, 0, 0, 4, 0, 0, 0, 2, 3, 0] = .error .badChannels := by decide
theorem test_decode_bad_colorspace :
    decode .header [0x71, 0x6F, 0x69, 0x66, 0, 0, 0, 4, 0, 0, 0, 2, 4, 1] = .error .badColorspace := by decide
theorem test_decode_bad_footer : decode .footer [0, 0, 0, 0, 0, 0, 0, 2] = .error .badFooter := by decide

/-- The rows of spec/opcode_table.json by their `match` words. -/
theorem test_table_words :
    decodeTableWord 8 0x00 = some (.index 0) ∧ decodeTableWord 8 0x40 = some (.diff (-2) (-2) (-2))
    ∧ decodeTableWord 16 0x8000 = some (.luma (-32) (-8) (-8)) ∧ decodeTableWord 8 0xC0 = some (.run 1)
    ∧ decodeTableWord 32 0xFE000000 = some (.rgb 0 0 0) ∧ decodeTableWord 40 0xFF00000000 = some (.rgba 0 0 0 0)
    ∧ decodeTableWord 112 0x716F696600000000000000000400 = some (.header 0 0)
    ∧ decodeTableWord 64 1 = some .footer := by decide

/-- R98, 95_test_vectors.md P3. -/
theorem test_asm : (Instr.diff 1 (-1) 0).asm = "DIFF 1, -1, 0" := by decide

/-! ### The units -/

/-- 41_wraparound.md R133, 95_test_vectors.md V1: one row for each branch and each no-fit edge. -/
theorem test_wrapdiff :
    wrapDiff 100 98 (-2) 1 = some (-2) ∧ wrapDiff 100 102 (-2) 1 = none ∧ wrapDiff 0 255 (-2) 1 = some (-1)
    ∧ wrapDiff 255 0 (-2) 1 = some 1 ∧ wrapDiff 0 253 (-2) 1 = none ∧ wrapDiff 10 255 (-32) 31 = some (-11)
    ∧ wrapDiff 240 15 (-32) 31 = some 31 ∧ wrapDiff 240 16 (-32) 31 = none ∧ wrapDiff 3 251 (-8) 7 = some (-8)
    ∧ wrapDiff 250 2 (-8) 7 = none ∧ wrapDiff 128 0 (-8) 7 = none := by decide

/-- 95_test_vectors.md V2.1. -/
theorem test_hash : pixelHash ⟨21, 0, 0, 0⟩ = 63 ∧ pixelHash ⟨5, 6, 7, 8⟩ = 54 ∧ pixelHash ⟨0, 255, 0, 255⟩ = 48
    ∧ pixelHash ⟨0, 0, 255, 255⟩ = 46 := by decide

/-- 95_test_vectors.md V5.1, the base reduced modulo 256 (41_wraparound.md R132). -/
theorem test_luma_base : lumaOperands ⟨250, 250, 250, 255⟩ ⟨20, 14, 10, 255⟩ = some ⟨20, 6, -4⟩ := by decide

/-- 95_test_vectors.md V3 row 1: INDEX has priority over DIFF. -/
theorem test_index_before_diff :
    selectRecord ⟨11, 20, 30, 255⟩ (cacheUpdate cacheInit ⟨10, 20, 30, 255⟩) ⟨10, 20, 30, 255⟩ = .index 9 := by decide

/-- 40_hash_cache.md R115: a colliding pixel evicts. -/
theorem test_collision :
    hit (cacheUpdate (cacheUpdate cacheInit ⟨64, 0, 0, 255⟩) ⟨128, 0, 0, 255⟩) ⟨64, 0, 0, 255⟩ = false := by decide

/-! ### One step on a small state -/

/-- What a next state holds. -/
def ofNext {α : Type} (o : Result) (f : State → α) : Option α :=
  match o with
  | .next s => some (f s)
  | .fault _ => none
  | .refused _ => none

/-- A 2 x 1 image in its PIXELS phase, the header written as if before it, with the given `prev`, `run` and pixels. -/
def midState (prev : Pixel) (run : BitVec 6) (px : List Pixel) : State :=
  { State.reset with
    prev := prev, run := run, phase := .pixels, w := 2, h := 1, npix := 2, cap := 32, pix := px, len := 14 }

def black : Pixel := ⟨0, 0, 0, 255⟩

/-- 42_strategy_select.md R147: byte 76. -/
theorem test_step_diff :
    ofNext (step (midState black 0 [⟨1, 255, 0, 255⟩, black])) (fun t => (t.out, t.len, t.pos, t.prev))
      = some ([(14, 0x76)], 15, 1, ⟨1, 255, 0, 255⟩) := by decide

/-- 95_test_vectors.md S4: bytes 95 88. -/
theorem test_step_luma :
    ofNext (step (midState ⟨10, 10, 10, 255⟩ 0 [⟨255, 255, 255, 255⟩, black])) (fun t => t.out)
      = some [(14, 0x95), (15, 0x88)] := by decide

/-- 42_strategy_select.md R150: half-way. -/
theorem test_step_rgb :
    ofNext (step (midState ⟨10, 40, 10, 255⟩ 0 [⟨138, 40, 10, 255⟩, black])) (fun t => t.out)
      = some [(14, 0xFE), (15, 0x8A), (16, 0x28), (17, 0x0A)] := by decide

/-- 95_test_vectors.md V5.4: colour equal, alpha differs by one. -/
theorem test_step_rgba :
    ofNext (step (midState black 0 [⟨0, 0, 0, 254⟩, black])) (fun t => t.out)
      = some [(14, 0xFF), (15, 0), (16, 0), (17, 0), (18, 0xFE)] := by decide

/-- 42_strategy_select.md R145: a hit on the initial cache. -/
theorem test_step_index :
    ofNext (step (midState black 0 [⟨0, 0, 0, 0⟩, black])) (fun t => (t.out, t.prev))
      = some ([(14, 0x00)], ⟨0, 0, 0, 0⟩) := by decide

/-- 43_run.md R171: the 62nd equal pixel emits FD and clears the counter. -/
theorem test_step_run_cap :
    ofNext (step (midState black 61 [black, black])) (fun t => (t.out, t.run)) = some ([(14, 0xFD)], 0) := by decide

/-- 95_test_vectors.md P7, pixel 2: the flush precedes the record and does not write the cache. -/
theorem test_step_flush_first :
    ofNext (step (midState black 2 [⟨1, 0, 0, 255⟩, black])) (fun t => (t.out, t.run, cacheRead t.cache 53))
      = some ([(14, 0xC1), (15, 0x7A)], 0, ⟨0, 0, 0, 0⟩) := by decide

/-- 44_framing.md R195: run 38 gives E5. -/
theorem test_step_flush :
    ofNext (step { midState black 38 [] with phase := .flush }) (fun t => (t.out, t.phase))
      = some ([(14, 0xE5)], .footer) := by decide

/-- 44_framing.md R193. -/
theorem test_step_header :
    ofNext (step { midState black 0 [] with phase := .header, len := 0 }) (fun t => (t.out.map (·.2), t.len, t.phase))
      = some ([0x71, 0x6F, 0x69, 0x66, 0, 0, 0, 2, 0, 0, 0, 1, 4, 0], 14, .pixels) := by decide

/-- 44_framing.md R196. -/
theorem test_step_footer :
    ofNext (step { midState black 0 [] with phase := .footer }) (fun t => (t.out.map (·.2), t.len, t.phase))
      = some ([0, 0, 0, 0, 0, 0, 0, 1], 22, .done) := by decide

/-- A 10 x 10 START with the given claim and capacity. -/
def start10 (npix cap : Nat) : StartInputs := ⟨10, 10, npix, cap, []⟩

/-- 95_test_vectors.md V7.4: the rows of the 10 x 10 image. -/
theorem test_start_checks :
    startCheck (start10 100 522) = none ∧ startCheck (start10 100 521) = some .capacity
    ∧ startCheck (start10 99 522) = some .inputLength ∧ startCheck (start10 101 522) = some .inputLength
    ∧ startCheck (start10 99 0) = some .inputLength
    ∧ startCheck ⟨65536, 65536, 2 ^ 32, 5 * 2 ^ 32 + 22, []⟩ = none
    ∧ startCheck ⟨65536, 65536, 0, 5 * 2 ^ 32 + 22, []⟩ = some .inputLength := by decide

/-- 95_test_vectors.md P10: a failed START. -/
theorem test_step_start_fails :
    ofNext (step { State.reset with host := [.start ⟨2, 1, 2, 31, []⟩], len := 7 })
      (fun t => (t.status.code, t.len, t.pos, t.phase)) = some (1, 0, 0, .failed) := by decide

/-- The first step after reset runs the placed instruction, for each row's word. -/
theorem test_placed_words :
    (∀ p ∈ [(8, 0x00), (8, 0x40), (16, 0x8000), (8, 0xC0), (32, 0xFE000000), (40, 0xFF00000000),
        (112, 0x716F696600000000000000000400), (64, 1)],
      ofNext (step (State.reset.withFetchWord p.1 p.2)) (fun t => t.out.map (·.2))
        = (decodeTableWord p.1 p.2).map encode) := by decide

/-! ### Witnesses: for each statement with hypotheses, a state and operands that meet all of them -/

/-- A 1 x 1 START of one pixel. -/
def start1 : StartInputs := ⟨1, 1, 1, 27, [⟨1, 2, 3, 4⟩]⟩
def zeroStart : StartInputs := ⟨0, 5, 0, 22, []⟩
/-- A red pixel, which differs from `black`. -/
def red : Pixel := ⟨255, 0, 0, 255⟩

theorem witness_DecodeOfEncode : (Instr.luma (-32) 7 (-8)).wf = true := by decide
theorem witness_DecodedBytes : decode .records [0x40, 7] = .ok (.diff (-2) (-2) (-2), [7])
    ∧ decode .records [0xFD] = .ok (.run 62, []) := by decide
theorem witness_EveryLeadingByte : 4 ≤ [0, 0, 0, (0 : Byte)].length ∧ (0x3F : Byte).toNat ≤ 0x3F
    ∧ (0x40 ≤ (0x40 : Byte).toNat ∧ (0x40 : Byte).toNat ≤ 0x7F) ∧ (0x80 ≤ (0xBF : Byte).toNat ∧ (0xBF : Byte).toNat ≤ 0xBF)
    ∧ (0xC0 ≤ (0xFD : Byte).toNat ∧ (0xFD : Byte).toNat ≤ 0xFD) ∧ (0xFE : Byte).toNat = 0xFE
    ∧ (0xFF : Byte).toNat = 0xFF := by decide
theorem witness_RunByte : 1 ≤ 1 ∧ 1 ≤ 62 ∧ 62 ≤ 62 := by decide
theorem witness_BlockOfEqualPixels : (CodecState.init).run = 0 ∧ ∀ q ∈ [red].head?, q ≠ (CodecState.init).prev := by
  decide
theorem witness_Wraparound : (-128 : Int) ≤ -128 ∧ (-128 : Int) ≤ 0 ∧ (0 : Int) ≤ 127 ∧ (127 : Int) ≤ 127
    ∧ wrapDiff 0 128 (-128) 127 = some (-128) ∧ wrapDiff 0 128 (-128) 0 = some (-128)
    ∧ (((138 : Byte).toNat : Int) - (10 : Byte).toNat) % 256 = 128 := by decide
theorem witness_Windows : (-128 : Int) ≤ -128 ∧ (127 : Int) ≤ 127 ∧ (Instr.diff (-2) 1 0).wf = true
    ∧ (Instr.luma 31 (-8) 7).wf = true := by decide
theorem witness_HashWidth : 6 ≤ 6 := by decide
/-- Records: the current pixel is readable and OUT has room (IndexEmitsItsHash, DiffEmitsBiasedDeltas, LumaEmitsBiasedDeltas,
RgbEmitsRawChannels, RgbaEmitsRawChannels, RecordsLeaveTheRestUnchanged), at the last byte that fits. -/
theorem witness_Records : let s := { midState black 0 [red, black] with len := 27 }
    pixRead s.pos s = .ok red ∧ s.len + 5 ≤ s.cap ∧ s.len + 4 ≤ s.cap ∧ s.len + 2 ≤ s.cap ∧ s.len + 1 ≤ s.cap
    ∧ (ofNext (exec (.rgba 1 2 3 4) s) (·.len)) = some 32 ∧ (ofNext (exec (.index 5) s) (·.len)) = some 28
    ∧ (ofNext (exec (.diff (-2) 1 0) s) (·.len)) = some 28 ∧ (ofNext (exec (.luma (-32) 7 (-8)) s) (·.len)) = some 29
    ∧ (ofNext (exec (.rgb 1 2 3) s) (·.len)) = some 31 := by decide
theorem witness_IndexHit : hit cacheInit ⟨0, 0, 0, 0⟩ = true ∧ black = (midState black 0 []).prev := by decide
theorem witness_Rgba : (⟨0, 0, 0, 255⟩ : Pixel).a ≠ (⟨0, 0, 0, 0⟩ : Pixel).a ∧ cacheRead cacheInit 53 = ⟨0, 0, 0, 0⟩ := by
  decide
theorem witness_RunEmits : let s := midState black 5 []
    s.len + 1 ≤ s.cap ∧ (midState black 0 []).run = 0 ∧ ofNext (exec (.run 62) s) (·.run) = some 0 := by decide
theorem witness_Frames : let s := { midState black 0 [] with len := 18 }
    s.len + 14 ≤ s.cap ∧ s.len + 8 ≤ s.cap ∧ s.len + 4 ≤ s.cap
    ∧ ofNext (exec (.header 7 9) s) (·.phase) = some .pixels ∧ ofNext (exec .footer s) (·.phase) = some .done := by decide
theorem witness_IllFormed : (Instr.diff 2 0 0).wf = false ∧ (Instr.luma 0 8 0).wf = false ∧ 62 < 63
    ∧ ofNext (exec (.run 63) State.reset) (·.len) = none := by decide
theorem witness_NoPixelOrNoRoom :
    (let s := State.reset; s.npix ≤ s.pos)
    ∧ (let s := { midState black 0 [] with pos := 1 }; s.pos < s.npix ∧ s.pix.length ≤ s.pos)
    ∧ (let s := { midState black 0 [red] with cap := 14 }
       s.pos < s.npix ∧ s.pos < s.pix.length ∧ s.cap < s.len + (encode (.index 3)).length
       ∧ s.cap < s.len + (encode (.run 3)).length)
    ∧ (Instr.index 3).wf = true ∧ (Instr.run 3).wf = true := by decide
/-- One pixel for each row of the decision table. -/
theorem witness_PriorityTable :
    eqPrev black black = true ∧ eqPrev black red = false ∧ hit cacheInit ⟨0, 0, 0, 0⟩ = true
    ∧ (hit cacheInit red = false ∧ alphaSame black red = true ∧ diffFits black red = true)
    ∧ (hit cacheInit ⟨10, 10, 10, 255⟩ = false ∧ diffFits black ⟨10, 10, 10, 255⟩ = false
        ∧ lumaFits black ⟨10, 10, 10, 255⟩ = true)
    ∧ (hit cacheInit ⟨64, 0, 0, 255⟩ = false ∧ alphaSame black ⟨64, 0, 0, 255⟩ = true
        ∧ diffFits black ⟨64, 0, 0, 255⟩ = false ∧ lumaFits black ⟨64, 0, 0, 255⟩ = false)
    ∧ (hit cacheInit ⟨1, 2, 3, 4⟩ = false ∧ alphaSame black ⟨1, 2, 3, 4⟩ = false) := by decide
theorem witness_Selector : red ≠ black ∧ selectRecord black cacheInit ⟨10, 10, 10, 255⟩ = .luma 10 0 0
    ∧ selectRecord black cacheInit ⟨1, 2, 3, 4⟩ = .rgba 1 2 3 4 ∧ selectRecord black cacheInit ⟨64, 0, 0, 255⟩ = .rgb 64 0 0
    ∧ selectRecord black cacheInit ⟨0, 0, 0, 0⟩ = .index 0 ∧ selectRecord black cacheInit red = .diff (-1) 0 0 := by decide
/-- The selection clauses of DiffEmitsBiasedDeltas, LumaEmitsBiasedDeltas and RgbEmitsRawChannels, at the windows' ends. -/
theorem witness_SelectionClauses :
    (let p : Pixel := ⟨254, 1, 0, 255⟩
     hit cacheInit p = false ∧ p.a = black.a ∧ wrapDiff black.r p.r (-2) 1 = some (-2)
      ∧ wrapDiff black.g p.g (-2) 1 = some 1 ∧ wrapDiff black.b p.b (-2) 1 = some 0)
    ∧ (let p : Pixel := ⟨216, 224, 231, 255⟩
       hit cacheInit p = false ∧ p.a = black.a ∧ diffFits black p = false ∧ wrapDiff black.g p.g (-32) 31 = some (-32)
        ∧ wrapDiff (black.r + BitVec.ofInt 8 (-32)) p.r (-8) 7 = some (-8)
        ∧ wrapDiff (black.b + BitVec.ofInt 8 (-32)) p.b (-8) 7 = some 7) := by decide
/-- Each clause of StepRunsTheIssuedInstruction, and the hypotheses of the statements about one encoder step. -/
theorem witness_Steps :
    (let s := { midState black 0 [] with phase := .header }; s.host = [] ∧ s.phase = .header)
    ∧ (let s := { midState black 0 [] with phase := .footer }; s.host = [] ∧ s.phase = .footer)
    ∧ (let s := { midState black 61 [] with phase := .flush }
       s.host = [] ∧ s.phase = .flush ∧ s.run ≠ 0 ∧ s.run.toNat ≤ 61 ∧ s.len + 1 ≤ s.cap)
    ∧ (let s := { midState black 0 [] with phase := .flush }; s.host = [] ∧ s.phase = .flush ∧ s.run = 0)
    ∧ (let s := { midState black 0 [] with pos := 2 }; s.host = [] ∧ s.phase = .pixels ∧ s.pos = s.pixelCount)
    ∧ (let s := midState black 0 [red, red]
       s.host = [] ∧ s.phase = .pixels ∧ s.pos < s.pixelCount ∧ pixRead s.pos s = .ok red ∧ red ≠ s.prev ∧ s.run = 0)
    ∧ (let s := midState black 62 [red, red]
       s.pos < s.pixelCount ∧ pixRead s.pos s = .ok red ∧ s.run ≠ 0 ∧ s.run.toNat ≤ 62 ∧ s.len + 6 ≤ s.cap)
    ∧ (let s := midState black 60 [black, red]
       s.pos < s.pixelCount ∧ pixRead s.pos s = .ok s.prev ∧ s.run ≠ 61 ∧ s.run.toNat < 61)
    ∧ (let s := midState black 61 [black, red]
       s.pos < s.pixelCount ∧ pixRead s.pos s = .ok s.prev ∧ s.run.toNat = 61 ∧ s.len + 1 ≤ s.cap) := by decide
/-- A step that answers a next state in each phase (PixelStepEmitsAtMostSixBytes, PrevIsThePixelAfterEveryPixelStep,
CacheIsWrittenExactlyByRecords, OutputIsAppendOnly, BlockNeverReadsItsOutput, EncoderKeepsItsInputs,
PhasesAndPositionOnlyMoveForward). -/
theorem witness_NextSteps :
    ofNext (step (midState black 0 [red, red])) (·.pos) = some 1
    ∧ ofNext (step (midState black 0 [black, red])) (·.run) = some 1
    ∧ ofNext (step { midState black 0 [] with pos := 2 }) (·.phase) = some .flush
    ∧ ofNext (step { midState black 0 [] with phase := .header }) (·.phase) = some .pixels := by decide
theorem witness_PlacedWord : decodeTableWord 16 0x8000 = some (.luma (-32) (-8) (-8))
    ∧ issuable (.luma (-32) (-8) (-8)) = true ∧ issuable (.diff (-2) (-2) (-2)) = true ∧ issuable (.run 62) = true := by decide
theorem witness_Start : let s := { State.reset with host := [.start start1] }
    s.phase = .idle ∧ s.host = .start start1 :: [] ∧ start1.npix = start1.w.toNat * start1.h.toNat
    ∧ 5 * (start1.w.toNat * start1.h.toNat) + 22 ≤ start1.cap ∧ s.phase.busy = false ∧ startCheck start1 = none
    ∧ start1.pix.length = start1.npix := by decide
theorem witness_StartErrors :
    (start10 101 522).npix ≠ (start10 101 522).w.toNat * (start10 101 522).h.toNat
    ∧ (start10 100 521).npix = (start10 100 521).w.toNat * (start10 100 521).h.toNat
    ∧ (start10 100 521).cap < 5 * ((start10 100 521).w.toNat * (start10 100 521).h.toNat) + 22
    ∧ ({ State.reset with phase := .failed, host := [.start (start10 100 521)] } : State).phase = .failed := by decide
theorem witness_NoStartWhileBusy : let s := { midState black 0 [red, red] with host := [.start start1] }
    s.phase.busy = true ∧ s.host = .start start1 :: [] ∧ ofNext (step s) (·.pos) = some 1 := by decide
theorem witness_Reset : ({ midState black 3 [] with host := [.reset] } : State).host = .reset :: [] := by decide
theorem witness_Terminal : Phase.done.busy = false ∧ State.reset.host = [] ∧ Phase.failed ≠ Phase.done
    ∧ Phase.flush.busy = true ∧ hostResult { midState black 0 [] with phase := .done, len := 0 } = some [] := by decide
theorem witness_ZeroDimensions : let s := { State.reset with host := [.start zeroStart] }
    s.phase.busy = false ∧ s.host = [.start zeroStart] ∧ (zeroStart.w = 0 ∨ zeroStart.h = 0) ∧ zeroStart.npix = 0
    ∧ 22 ≤ zeroStart.cap := by decide
/-- Program P7: the initial `prev` enters slot 53 when it is emitted (InitialPrevEntersTheCacheOnlyWhenEmitted). -/
theorem witness_InitialPrevEnters :
    cacheRead (codecAfter [black, black, ⟨1, 0, 0, 255⟩, black]).cache 53 = Config.prevInit := by decide
theorem witness_CacheHoldsTheLatest : startCheck start1 = none ∧ start1.pix.length = start1.npix ∧ 1 ≤ start1.npix
    ∧ State.reset.host = [] := by decide

/-- A busy state that meets the invariant, with a step: EveryStepKeepsTheInvariant, BusyEncoderNeverFails. -/
theorem witness_Inv : (loadEncode start1 State.reset).Inv ∧ (loadEncode start1 State.reset).phase.busy = true
    ∧ ofNext (step (loadEncode start1 State.reset)) (·.len) = some 14 := by
  refine ⟨⟨by decide, by decide, by decide, ?_, ?_⟩, by decide, by decide⟩
  · intro k
    exact .inl (by simp [loadEncode, cacheRead, cacheInit])
  · exact ⟨⟨by decide, by decide, by decide, by decide, by decide⟩, by decide, by decide, by decide, by decide⟩

/-- A busy state that meets the invariant and is on the track of the functional form, with a step:
EveryStepKeepsTheEncodeOnTrack, ResetAndStartAreOnTrack. -/
theorem witness_OnTrack : (loadEncode start1 State.reset).Inv ∧ (loadEncode start1 State.reset).OnTrack
    ∧ startCheck start1 = none ∧ ofNext (step (loadEncode start1 State.reset)) (·.len) = some 14 := by
  refine ⟨witness_Inv.1, ?_, by decide, by decide⟩
  intro _
  exact ⟨rfl, rfl, rfl, rfl, fun k hk => absurd hk (Nat.not_lt_zero k)⟩

end Sys2Proof.Tests.Slice0
end

section
/-! PROOF. What one step of the encoder does to each register, and that a busy encoder's next step completes. -/

namespace Sys2Proof.Machine

/-! ### The PIXEL step, register by register (42_strategy_select.md R140) -/

theorem encoderStep_of_pixels {s : State} (hph : s.phase = .pixels) (hpos : s.pos < s.pixelCount) :
    encoderStep s = pixelStep s := by
  simp [encoderStep, pixelsPhase, hph, hpos]

theorem pixelStep_pos {s t : State} (h : pixelStep s = .next t) : t.pos = s.pos + 1 := by
  obtain ⟨p, _, ⟨_, _, rfl⟩ | ⟨_, _, rfl⟩ | ⟨_, _, rfl⟩⟩ := pixelStep_eq_next h <;> rfl

theorem pixelStep_phase {s t : State} (h : pixelStep s = .next t) : t.phase = s.phase := by
  obtain ⟨p, _, ⟨_, _, rfl⟩ | ⟨_, _, rfl⟩ | ⟨_, _, rfl⟩⟩ := pixelStep_eq_next h <;> rfl

/-- A run pixel leaves `prev` alone because it equals it; a record writes it (10_state.md R37). -/
theorem pixelStep_prev {s t : State} (h : pixelStep s = .next t) : pixRead s.pos s = .ok t.prev := by
  obtain ⟨p, hp, ⟨rfl, _, rfl⟩ | ⟨rfl, _, rfl⟩ | ⟨_, _, rfl⟩⟩ := pixelStep_eq_next h <;> exact hp

theorem pixelStep_cache {s t : State} {p : Pixel} (hp : pixRead s.pos s = .ok p) (h : pixelStep s = .next t) :
    t.cache = if p = s.prev then s.cache else cacheUpdate s.cache p := by
  obtain ⟨q, hq, hc⟩ := pixelStep_eq_next h
  obtain rfl : p = q := Except.ok.inj (hp.symm.trans hq)
  obtain ⟨he, _, rfl⟩ | ⟨he, _, rfl⟩ | ⟨hne, _, rfl⟩ := hc
  · rw [if_pos he]
  · rw [if_pos he]; rfl
  · rw [if_neg hne]; rfl

/-- The run counter stays at most 61 at step boundaries: at 61 the extension flushes (43_run.md R171). -/
theorem pixelStep_run_le {s t : State} (hr : s.run.toNat ≤ 61) (h : pixelStep s = .next t) : t.run.toNat ≤ 61 := by
  obtain ⟨p, _, ⟨_, h61, rfl⟩ | ⟨_, _, rfl⟩ | ⟨_, _, rfl⟩⟩ := pixelStep_eq_next h
  · have hinc : (s.run + 1).toNat = (s.run.toNat + 1) % 64 := by simp [BitVec.toNat_add]
    show (s.run + 1).toNat ≤ 61
    omega
  · exact Nat.zero_le 61
  · exact Nat.zero_le 61

/-- With the pending run's byte counted as owed, a pixel costs at most five bytes (42_strategy_select.md R154). -/
theorem pixelStep_cost {s t : State} (h : pixelStep s = .next t) :
    s.len ≤ t.len ∧ t.len + t.owed ≤ s.len + s.owed + 5 := by
  obtain ⟨p, _, ⟨_, _, rfl⟩ | ⟨_, _, rfl⟩ | ⟨_, _, rfl⟩⟩ := pixelStep_eq_next h
  · have howed := owed_le { s with run := s.run + 1, pos := s.pos + 1 }
    refine ⟨Nat.le_refl _, ?_⟩
    show s.len + State.owed _ ≤ s.len + s.owed + 5
    omega
  · rw [owed_of_no_run rfl]
    show s.len ≤ s.len + 1 ∧ s.len + 1 + 0 ≤ s.len + s.owed + 5
    omega
  · obtain ⟨-, -, h5⟩ := exec_selectRecord s.prev s.cache p s
    rw [owed_of_no_run rfl, owed_eq s]
    simp only [commonUpdate_len, appendOut_len, List.length_append]
    omega

/-! ### A step of the encoder and the parts of the invariant -/

theorem encoderStep_out_wf {s t : State} (hw : Memory.wf s.out = true) (h : encoderStep s = .next t) :
    Memory.wf t.out = true := by
  obtain ⟨bs, hout, -⟩ := encoderStep_out h
  rw [hout]
  exact Memory.writeBytes_wf bs s.out s.len hw

theorem encoderStep_run_le {s t : State} (hr : s.run.toNat ≤ 61) (h : encoderStep s = .next t) :
    t.run.toNat ≤ 61 := by
  rcases encoderStep_eq_next h with ⟨_, rfl⟩ | ⟨_, _, hp⟩ | ⟨_, _, rfl⟩ | ⟨_, _, rfl⟩ | ⟨_, rfl⟩
  · exact hr
  · exact pixelStep_run_le hr hp
  · exact hr
  · exact Nat.zero_le 61
  · exact hr

theorem encoderStep_consistent {s t : State} (hc : Cache.consistent s.cache) (h : encoderStep s = .next t) :
    Cache.consistent t.cache := by
  rcases encoderStep_eq_next h with ⟨_, rfl⟩ | ⟨_, _, hp⟩ | ⟨_, _, rfl⟩ | ⟨_, _, rfl⟩ | ⟨_, rfl⟩
  · exact hc
  · rw [pixelStep_cache (pixelStep_prev hp) hp]
    split
    · exact hc
    · exact consistent_update hc _
  · exact hc
  · exact hc
  · exact hc

/-- The checked inputs are latched: only `pos` has to be looked at again (20_memory.md R65). -/
theorem State.InputsChecked.of_encoderStep {s t : State} (hin : s.InputsChecked) (h : encoderStep s = .next t)
    (hpos : t.pos ≤ s.pixelCount) : t.InputsChecked := by
  obtain ⟨_, _, _, hw, hh, hnpix, hcap, hpix, hstatus, _⟩ := encoderStep_out h
  have hn : t.pixelCount = s.pixelCount := by rw [State.pixelCount, hw, hh, State.pixelCount]
  exact {
    npix_eq := by rw [hnpix, hn, hin.npix_eq]
    pix_length := by rw [hpix, hnpix, hin.pix_length]
    capacity := by rw [hn, hcap]; exact hin.capacity
    status_ok := hstatus.trans hin.status_ok
    pos_le := by rwa [hn] }

theorem prevIsLastPixel_at_start {s : State} (hpos : s.pos = 0) (hprev : s.prev = Config.prevInit) :
    s.PrevIsLastPixel := by
  simp [State.PrevIsLastPixel, hpos, hprev]

/-- After a PIXEL step `prev` is the pixel that the step has just passed. -/
theorem pixelStep_prevIsLastPixel {s t : State} (hpix : t.pix = s.pix) (h : pixelStep s = .next t) :
    t.PrevIsLastPixel := by
  obtain ⟨-, hget⟩ := pixRead_ok.1 (pixelStep_prev h)
  simp [State.PrevIsLastPixel, pixelStep_pos h, hpix, hget]

/-! ### The phase's part of the invariant, phase by phase -/

theorem phaseInv_idle {s : State} (hph : s.phase = .idle) : s.PhaseInv ↔ s.len = 0 ∧ s.pos = 0 ∧ s.status = .ok := by
  rw [State.PhaseInv, hph]

theorem phaseInv_header {s : State} (hph : s.phase = .header) :
    s.PhaseInv ↔ s.InputsChecked ∧ s.len = 0 ∧ s.pos = 0 ∧ s.run = 0 ∧ s.prev = Config.prevInit := by
  rw [State.PhaseInv, hph]

theorem phaseInv_pixels {s : State} (hph : s.phase = .pixels) :
    s.PhaseInv ↔ s.InputsChecked ∧ s.PrevIsLastPixel ∧ 14 ≤ s.len
      ∧ s.len + s.owed ≤ 14 + 5 * s.pos := by
  rw [State.PhaseInv, hph]

theorem phaseInv_flush {s : State} (hph : s.phase = .flush) :
    s.PhaseInv ↔ s.InputsChecked ∧ s.PrevIsLastPixel ∧ s.pos = s.pixelCount ∧ 14 ≤ s.len
      ∧ s.len + s.owed ≤ 14 + 5 * s.pos := by
  rw [State.PhaseInv, hph]

theorem phaseInv_footer {s : State} (hph : s.phase = .footer) :
    s.PhaseInv ↔ s.InputsChecked ∧ s.PrevIsLastPixel ∧ s.pos = s.pixelCount ∧ s.run = 0 ∧ 14 ≤ s.len
      ∧ s.len ≤ 14 + 5 * s.pos := by
  rw [State.PhaseInv, hph]

theorem phaseInv_done {s : State} (hph : s.phase = .done) :
    s.PhaseInv ↔ s.InputsChecked ∧ s.PrevIsLastPixel ∧ s.pos = s.pixelCount ∧ s.run = 0 ∧ 22 ≤ s.len
      ∧ s.len ≤ 5 * s.pixelCount + 22 := by
  rw [State.PhaseInv, hph]

theorem phaseInv_failed {s : State} (hph : s.phase = .failed) :
    s.PhaseInv ↔ s.len = 0 ∧ s.pos = 0 ∧ s.status ≠ .ok := by
  rw [State.PhaseInv, hph]

theorem pixelStep_phaseInv {s t : State} (hph : s.phase = .pixels) (hpos : s.pos < s.pixelCount) (hi : s.PhaseInv)
    (h : pixelStep s = .next t) : t.PhaseInv := by
  have he : encoderStep s = .next t := (encoderStep_of_pixels hph hpos).trans h
  obtain ⟨hin, _, hlen, hpaid⟩ := (phaseInv_pixels hph).1 hi
  obtain ⟨_, _, _, _, _, _, _, hpix, _⟩ := encoderStep_out he
  obtain ⟨hmono, hcost⟩ := pixelStep_cost h
  have hp := pixelStep_pos h
  exact (phaseInv_pixels ((pixelStep_phase h).trans hph)).2
    ⟨hin.of_encoderStep he (by omega), pixelStep_prevIsLastPixel hpix h, by omega, by rw [hp]; omega⟩

theorem encoderStep_phaseInv {s t : State} (hi : s.PhaseInv) (h : encoderStep s = .next t) : t.PhaseInv := by
  rcases encoderStep_eq_next h with ⟨hph, rfl⟩ | ⟨hph, hpos, hp⟩ | ⟨hph, hpos, rfl⟩ | ⟨hph, _, rfl⟩ | ⟨hph, rfl⟩
  · obtain ⟨hin, hlen, hpos, hrun, hprev⟩ := (phaseInv_header hph).1 hi
    refine (phaseInv_pixels rfl).2 ⟨hin.of_encoderStep h hin.pos_le, prevIsLastPixel_at_start hpos hprev, ?_, ?_⟩
    · exact Nat.le_add_left 14 s.len
    · show s.len + 14 + State.owed _ ≤ 14 + 5 * s.pos
      rw [owed_of_no_run, hlen]
      · omega
      · exact hrun
  · exact pixelStep_phaseInv hph hpos hi hp
  · obtain ⟨hin, hprev, hlen, hpaid⟩ := (phaseInv_pixels hph).1 hi
    exact (phaseInv_flush rfl).2 ⟨hin.of_encoderStep h hin.pos_le, hprev, hpos, hlen, hpaid⟩
  · obtain ⟨hin, hprev, hpos, hlen, hpaid⟩ := (phaseInv_flush hph).1 hi
    rw [owed_eq] at hpaid
    exact (phaseInv_footer rfl).2
      ⟨hin.of_encoderStep h hin.pos_le, hprev, hpos, rfl, Nat.le_add_right_of_le hlen, hpaid⟩
  · obtain ⟨hin, hprev, hpos, hrun, hlen, hpaid⟩ := (phaseInv_footer hph).1 hi
    refine (phaseInv_done rfl).2 ⟨hin.of_encoderStep h hin.pos_le, hprev, hpos, hrun, ?_, ?_⟩
    · show 22 ≤ s.len + 8
      omega
    · show s.len + 8 ≤ 5 * s.pixelCount + 22
      omega

/-! ### Progress (60_exceptions.md R221) -/

/-- Before the last pixel, the pixel at `pos` can be read and the room for the worst case is still there. -/
theorem pixelStep_completes {s : State} (hr : s.run.toNat ≤ 61) (hph : s.phase = .pixels) (hpos : s.pos < s.pixelCount)
    (hi : s.PhaseInv) : ∃ t, pixelStep s = .next t := by
  obtain ⟨hin, _, _, hpaid⟩ := (phaseInv_pixels hph).1 hi
  have hnpix : s.pos < s.npix := hin.npix_eq ▸ hpos
  have hlen : s.pos < s.pix.length := hin.pix_length ▸ hnpix
  have hroom : s.len + (pendingByte s).length + 5 ≤ s.cap := by
    have hcap : 5 * s.pixelCount + 22 ≤ s.cap := hin.capacity
    rw [owed_eq] at hpaid
    omega
  obtain ⟨-, -, h5⟩ := exec_selectRecord s.prev s.cache s.pix[s.pos] s
  refine pixelStep_of_room (pixRead_ok.2 ⟨hnpix, List.getElem?_eq_getElem hlen⟩) hr ?_
  split
  · split <;> omega
  · omega

theorem headerStep_completes {s : State} (hph : s.phase = .header) (hi : s.PhaseInv) : ∃ t, encoderStep s = .next t := by
  obtain ⟨hin, hlen, _⟩ := (phaseInv_header hph).1 hi
  have hcap : 5 * s.pixelCount + 22 ≤ s.cap := hin.capacity
  have hroom : s.len + (encode (.header s.w s.h)).length ≤ s.cap := by
    show s.len + 14 ≤ s.cap
    omega
  have he : encoderStep s = exec (.header s.w s.h) s := by simp only [encoderStep, hph]
  rw [he, exec_header_eq, emitBytes_of_room _ _ hroom, andThen_next]
  exact ⟨_, rfl⟩

end Sys2Proof.Machine
end

section
/-! PROOF. The invariant of the machine: it holds at reset, and every step, the host's moves included, keeps it. -/

namespace Sys2Proof.Machine

theorem encoderStep_inv {s t : State} (hi : s.Inv) (h : encoderStep s = .next t) : t.Inv := by
  obtain ⟨_, _, _, _, _, _, _, _, _, hhost⟩ := encoderStep_out h
  exact {
    out_wf := encoderStep_out_wf hi.out_wf h
    host_honest := hhost ▸ hi.host_honest
    run_le := encoderStep_run_le hi.run_le h
    cache_consistent := encoderStep_consistent hi.cache_consistent h
    phase_inv := encoderStep_phaseInv hi.phase_inv h }

theorem inputsChecked_withHost (s : State) (moves : List HostMove) :
    State.InputsChecked { s with host := moves } ↔ s.InputsChecked :=
  ⟨fun h => ⟨h.npix_eq, h.pix_length, h.capacity, h.status_ok, h.pos_le⟩,
    fun h => ⟨h.npix_eq, h.pix_length, h.capacity, h.status_ok, h.pos_le⟩⟩

/-- The phase's part of the invariant does not look at the queue. -/
theorem phaseInv_withHost (s : State) (moves : List HostMove) :
    State.PhaseInv { s with host := moves } ↔ s.PhaseInv := by
  simp only [State.PhaseInv, inputsChecked_withHost]
  rfl

/-- Taking the first move off the queue leaves the invariant as it is. -/
theorem State.Inv.pop_host {s : State} {m : HostMove} {rest : List HostMove} (hi : s.Inv) (hh : s.host = m :: rest) :
    State.Inv { s with host := rest } :=
  { hi with
    host_honest := fun m' hm => hi.host_honest m' (hh ▸ List.mem_cons_of_mem m hm)
    phase_inv := (phaseInv_withHost s rest).2 hi.phase_inv }

theorem hostReset_inv {s : State} (hi : s.Inv) : (hostReset s).Inv where
  out_wf := hi.out_wf
  host_honest := hi.host_honest
  run_le := Nat.zero_le 61
  cache_consistent := consistent_init
  phase_inv := (phaseInv_idle rfl).2 ⟨rfl, rfl, rfl⟩

theorem raiseError_inv {s : State} (e : EncodeError) (hi : s.Inv) : (raiseError e s).Inv where
  out_wf := hi.out_wf
  host_honest := hi.host_honest
  run_le := hi.run_le
  cache_consistent := hi.cache_consistent
  phase_inv := (phaseInv_failed rfl).2 ⟨rfl, rfl, by cases e <;> simp [EncodeError.status]⟩

/-- A START that passes both checks and is honest meets HEADER's part of the invariant, from any state. -/
theorem loadEncode_phaseInv {i : StartInputs} (s : State) (hc : startCheck i = none) (hl : i.npix = i.pix.length) :
    (loadEncode i s).PhaseInv := by
  obtain ⟨hnpix, hcap⟩ := startCheck_eq_none.1 hc
  exact (phaseInv_header rfl).2 ⟨⟨hnpix, hl.symm, hcap, rfl, Nat.zero_le _⟩, rfl, rfl, rfl, rfl⟩

theorem startEncode_inv {s : State} {i : StartInputs} (hi : s.Inv) (hl : i.npix = i.pix.length) :
    (startEncode i s).Inv := by
  unfold startEncode
  split
  · exact raiseError_inv _ hi
  · next hc =>
    exact ⟨hi.out_wf, hi.host_honest, Nat.zero_le 61, consistent_init, loadEncode_phaseInv s hc hl⟩

/-- Settles O50: a host move or the encoder's step, by the cases of `step_eq_next`. -/
theorem everyStepKeepsTheInvariant : Obligations.EveryStepKeepsTheInvariant := by
  intro s t hi h
  rcases step_eq_next h with ⟨rest, hh, rfl⟩ | ⟨i, rest, hh, _, rfl⟩ | ⟨rest, hh, _, rfl⟩ | ⟨rest, hh, he⟩ | ⟨_, he⟩
  · exact hostReset_inv (hi.pop_host hh)
  · have honest := hi.host_honest (.start i) (by simp [hh])
    exact startEncode_inv (hi.pop_host hh) (by simpa [HostMove.honest] using honest)
  · exact hi.pop_host hh
  · exact encoderStep_inv (hi.pop_host hh) he
  · exact encoderStep_inv hi he

/-- Settles O51. -/
theorem resetMeetsTheInvariant : Obligations.ResetMeetsTheInvariant where
  out_wf := reset_out_wf
  host_honest := by simp [State.reset]
  run_le := Nat.zero_le 61
  cache_consistent := consistent_init
  phase_inv := (phaseInv_idle rfl).2 ⟨rfl, rfl, rfl⟩

/-- Settles O47: the values of `State.reset`, with no byte listed in OUT. -/
theorem resetValues : Obligations.ResetValues :=
  ⟨rfl, rfl, rfl, rfl, fun _ => rfl⟩

end Sys2Proof.Machine
end

section
/-! PROOF. The registers across one step of the encoder. -/

namespace Sys2Proof.Machine

/-- Settles O36: a run pixel equals `prev`, a record writes it. -/
theorem prevIsThePixelAfterEveryPixelStep : Obligations.PrevIsThePixelAfterEveryPixelStep := by
  intro s t hh hph hpos h
  rw [step_of_no_host hh, encoderStep_of_pixels hph hpos] at h
  exact pixelStep_prev h

/-- Settles O37: the cache changes in the PIXEL step of a record only. -/
theorem cacheIsWrittenExactlyByRecords : Obligations.CacheIsWrittenExactlyByRecords := by
  intro s t hh h
  rw [step_of_no_host hh] at h
  constructor
  · intro p hph hpos hp hne k
    rw [encoderStep_of_pixels hph hpos] at h
    rw [pixelStep_cache hp h, if_neg hne, cacheRead_update]
  · intro hrun
    rcases encoderStep_eq_next h with ⟨_, rfl⟩ | ⟨hph, hpos, hp⟩ | ⟨_, _, rfl⟩ | ⟨_, _, rfl⟩ | ⟨_, rfl⟩
    · exact ⟨rfl, rfl⟩
    · have hq : pixRead s.pos s = .ok s.prev := by
        by_contra hne
        exact hrun ⟨hph, hpos, hne⟩
      exact ⟨by rw [pixelStep_cache hq hp, if_pos rfl], Except.ok.inj ((pixelStep_prev hp).symm.trans hq)⟩
    · exact ⟨rfl, rfl⟩
    · exact ⟨rfl, rfl⟩
    · exact ⟨rfl, rfl⟩

/-- Settles O41. -/
theorem encoderKeepsItsInputs : Obligations.EncoderKeepsItsInputs := by
  intro s t hh h
  rw [step_of_no_host hh] at h
  obtain ⟨_, _, _, hw, hh', hnpix, hcap, hpix, hstatus, hhost⟩ := encoderStep_out h
  exact ⟨hw, hh', hnpix, hcap, hpix, hstatus, hhost.trans hh⟩

/-- Settles O42: one case for each line of the encoder's sequencing. -/
theorem phasesAndPositionOnlyMoveForward : Obligations.PhasesAndPositionOnlyMoveForward := by
  intro s t hh h
  rw [step_of_no_host hh] at h
  rcases encoderStep_eq_next h with ⟨hph, rfl⟩ | ⟨hph, hpos, hp⟩ | ⟨hph, hpos, rfl⟩ | ⟨hph, _, rfl⟩ | ⟨hph, rfl⟩
  · simp [hph]
  · simp [hph, hpos, pixelStep_pos hp, pixelStep_phase hp]
  · simp [hph, hpos]
  · simp [hph]
  · simp [hph]

end Sys2Proof.Machine
end

section
/-! PROOF. The cache and `prev` along an encode: those of the functional form (44_framing.md R200), whose cache holds in each
slot the latest emitted pixel of its hash (10_state.md R38). -/

namespace Sys2Proof.Machine

/-! ### The functional form's `prev` and cache -/

/-- One pixel more is emitted just if it differs from the one before it. -/
theorem emittedFrom_append (before : Pixel) (ps : List Pixel) (p : Pixel) :
    emittedFrom before (ps ++ [p])
      = emittedFrom before ps ++ if p = ps.getLast?.getD before then [] else [p] := by
  induction ps generalizing before with
  | nil => rfl
  | cons q ps ih =>
    have hlast : (q :: ps).getLast?.getD before = ps.getLast?.getD q := by simp [List.getLast?_cons]
    rw [hlast, List.cons_append, emittedFrom, emittedFrom, ih, ih]
    split
    · next hq => rw [hq]
    · rfl

theorem lastOfHash_append (ps : List Pixel) (p : Pixel) (k : Slot) :
    lastOfHash (ps ++ [p]) k
      = if p ≠ ps.getLast?.getD Config.prevInit ∧ k = pixelHash p then p else lastOfHash ps k := by
  unfold lastOfHash
  rw [emittedFrom_append]
  by_cases hp : p = ps.getLast?.getD Config.prevInit
  · simp [← hp]
  · by_cases hk : k = pixelHash p
    · simp [hp, hk]
    · simp [hp, hk, Ne.symm hk]

theorem codecNext_prev (c : CodecState) (p : Pixel) : (codecNext c p).prev = p := by
  by_cases h : p = c.prev <;> simp [codecNext, eqPrev, h]

theorem codecNext_cache (c : CodecState) (p : Pixel) :
    (codecNext c p).cache = if p = c.prev then c.cache else cacheUpdate c.cache p := by
  by_cases h : p = c.prev <;> simp [codecNext, eqPrev, h]

theorem codecAfter_prev (ps : List Pixel) : (codecAfter ps).prev = ps.getLast?.getD Config.prevInit := by
  induction ps using List.reverseRecOn with
  | nil => rfl
  | append_singleton ps p ih => simp [codecAfter_append, codecNext_prev]

/-- Every slot of the functional form's cache holds the latest emitted pixel of its hash (10_state.md R38). -/
theorem cacheRead_codecAfter (ps : List Pixel) (k : Slot) : cacheRead (codecAfter ps).cache k = lastOfHash ps k := by
  induction ps using List.reverseRecOn with
  | nil => exact cacheRead_init k
  | append_singleton ps p ih =>
    rw [codecAfter_append, codecNext_cache, codecAfter_prev, lastOfHash_append]
    by_cases hp : p = ps.getLast?.getD Config.prevInit
    · rw [if_pos hp, if_neg (fun h => h.1 hp), ih]
    · rw [if_neg hp, cacheRead_update, ih]
      simp only [ne_eq, hp, not_false_eq_true, true_and]

theorem emittedFrom_replicate (p : Pixel) (m : Nat) : emittedFrom p (List.replicate m p) = [] := by
  induction m with
  | zero => rfl
  | succ m ih => simp [List.replicate_succ, emittedFrom, ih]

/-- What a slot holds is `(0,0,0,0)` or a pixel that was emitted. -/
theorem lastOfHash_mem (ps : List Pixel) (k : Slot) :
    lastOfHash ps k = Config.cacheInitPixel ∨ lastOfHash ps k ∈ emittedFrom Config.prevInit ps := by
  unfold lastOfHash
  cases hl : ((emittedFrom Config.prevInit ps).filter fun p => decide (pixelHash p = k)).getLast? with
  | none => exact .inl rfl
  | some p => exact .inr (List.mem_of_mem_filter (List.mem_of_getLast? hl))

/-- Settles O56: pixels equal to the initial `prev` at the start of an image are not emitted, and a slot holds only what was. -/
theorem initialPrevEntersTheCacheOnlyWhenEmitted : Obligations.InitialPrevEntersTheCacheOnlyWhenEmitted := by
  refine ⟨by decide, fun m => ?_, fun px h => ?_⟩
  · rw [cacheRead_codecAfter, lastOfHash, emittedFrom_replicate]
    rfl
  · rw [cacheRead_codecAfter] at h
    rcases lastOfHash_mem px 53 with h0 | hmem
    · exact absurd (h.symm.trans h0) (by decide)
    · rwa [h] at hmem

/-! ### The machine along an encode -/

/-- In the PIXELS phase of the encode of `i`, after `j` of its pixels, with no host move to come: `prev`, `run` and the cache
are those of the functional form. -/
structure State.AfterPixels (i : StartInputs) (j : Nat) (s : State) : Prop where
  host_eq : s.host = []
  phase_eq : s.phase = .pixels
  pos_eq : s.pos = j
  pix_eq : s.pix = i.pix
  count_eq : s.pixelCount = i.npix
  run_le : s.run.toNat ≤ 61
  phase_inv : s.PhaseInv
  codec_eq : s.codec = codecAfter (i.pix.take j)

theorem headerStep_afterPixels {s : State} {i : StartInputs} (hh : s.host = []) (hc : startCheck i = none)
    (hl : i.pix.length = i.npix) : ∃ t, step (loadEncode i s) = .next t ∧ t.AfterPixels i 0 := by
  have hi := loadEncode_phaseInv s hc hl.symm
  obtain ⟨t, ht⟩ := headerStep_completes (loadEncode_phase i s) hi
  refine ⟨t, by rw [step_of_no_host (s := loadEncode i s) hh, ht], ?_⟩
  have hinv := encoderStep_phaseInv hi ht
  rcases encoderStep_eq_next ht with ⟨_, rfl⟩ | ⟨hph, _⟩ | ⟨hph, _⟩ | ⟨hph, _⟩ | ⟨hph, _⟩
  · exact ⟨hh, rfl, rfl, rfl, (startCheck_eq_none.1 hc).1.symm, Nat.zero_le 61, hinv, rfl⟩
  all_goals cases hph

theorem State.AfterPixels.step {i : StartInputs} {j : Nat} {s : State} (h : s.AfterPixels i j) (hj : j < i.npix) :
    ∃ t, step s = .next t ∧ t.AfterPixels i (j + 1) := by
  have hpos : s.pos < s.pixelCount := by rw [h.pos_eq, h.count_eq]; exact hj
  obtain ⟨t, ht⟩ := pixelStep_completes h.run_le h.phase_eq hpos h.phase_inv
  have he : encoderStep s = .next t := (encoderStep_of_pixels h.phase_eq hpos).trans ht
  obtain ⟨_, _, _, hw, hh, _, _, hpix, _, hhost⟩ := encoderStep_out he
  obtain ⟨p, hp, _, hcodec⟩ := pixelStep_codec h.run_le ht
  have hget : i.pix[j]? = some p := by
    rw [← h.pix_eq, ← h.pos_eq]
    exact (pixRead_ok.1 hp).2
  exact ⟨t, (step_of_no_host h.host_eq).trans he, {
    host_eq := hhost.trans h.host_eq
    phase_eq := (pixelStep_phase ht).trans h.phase_eq
    pos_eq := by rw [pixelStep_pos ht, h.pos_eq]
    pix_eq := hpix.trans h.pix_eq
    count_eq := by rw [State.pixelCount, hw, hh]; exact h.count_eq
    run_le := pixelStep_run_le h.run_le ht
    phase_inv := pixelStep_phaseInv h.phase_eq hpos h.phase_inv ht
    codec_eq := by rw [hcodec, h.codec_eq, List.take_add_one, hget, Option.toList_some, codecAfter_append] }⟩

/-- The HEADER step and `j` PIXEL steps complete. -/
theorem run_afterPixels {s : State} {i : StartInputs} (hh : s.host = []) (hc : startCheck i = none)
    (hl : i.pix.length = i.npix) (j : Nat) (hj : j ≤ i.npix) :
    ∃ t, Host.Core.run core (1 + j) (loadEncode i s) = .next t ∧ t.AfterPixels i j := by
  induction j with
  | zero =>
    obtain ⟨t, ht, hafter⟩ := headerStep_afterPixels hh hc hl
    exact ⟨t, (run_one _).trans ht, hafter⟩
  | succ j ih =>
    obtain ⟨u, hu, hafter⟩ := ih (by omega)
    obtain ⟨t, ht, hafter'⟩ := hafter.step hj
    exact ⟨t, by rw [← Nat.add_assoc, run_add_of_next hu]; exact (run_one u).trans ht, hafter'⟩

/-- Settles O55: the machine's cache is the functional form's, whose slots hold the latest emitted pixel of their hash. -/
theorem cacheHoldsTheLatestEmittedPixel : Obligations.CacheHoldsTheLatestEmittedPixel := by
  intro s i j hh hc hl hj
  obtain ⟨t, ht, hafter⟩ := run_afterPixels hh hc hl j hj
  have hcache : t.cache = (codecAfter (i.pix.take j)).cache := congrArg CodecState.cache hafter.codec_eq
  have hprev : t.prev = (codecAfter (i.pix.take j)).prev := congrArg CodecState.prev hafter.codec_eq
  exact ⟨t, ht, hafter.phase_eq, hafter.pos_eq, fun k => by rw [hcache, cacheRead_codecAfter],
    by rw [hprev, codecAfter_prev]⟩

/-! ### Where an encode begins on the track of the functional form -/

/-- START loads the functional form's initial `prev`, `run` and cache, with nothing emitted (44_framing.md R192). -/
theorem loadEncode_onTrack (i : StartInputs) (s : State) : (loadEncode i s).OnTrack :=
  fun _ => ⟨rfl, rfl, rfl, rfl, fun k hk => absurd hk (Nat.not_lt_zero k)⟩

/-- Settles O59: no encode is under way at reset, and a successful START is `loadEncode`. -/
theorem resetAndStartAreOnTrack : Obligations.ResetAndStartAreOnTrack := by
  refine ⟨fun h => absurd h (by decide), fun s i hc => ?_⟩
  rw [startEncode, hc]
  exact loadEncode_onTrack i s

end Sys2Proof.Machine
end

section
/-! PROOF. Where an instruction stops for want of a pixel or of room in OUT (20_memory.md R52, R53). -/

namespace Sys2Proof.Machine

theorem pixRead_of_npix_le {i : Nat} {s : State} (h : s.npix ≤ i) : pixRead i s = .error .pixReadOutOfRange :=
  if_neg (Nat.not_lt.2 h)

theorem pixRead_of_pix_length_le {i : Nat} {s : State} (h : i < s.npix) (hl : s.pix.length ≤ i) :
    pixRead i s = .error .pixNotSupplied := by
  simp [pixRead, h, List.getElem?_eq_none hl]

/-- A record reads its pixel first: where that stops, no byte is emitted. -/
theorem emitRecord_of_no_pixel {bytes : List Byte} {s : State} {r : Fault} (h : pixRead s.pos s = .error r) :
    emitRecord bytes s = .fault r := by
  simp [emitRecord, withPixel, h]

theorem emitRecord_of_no_room {bytes : List Byte} {s : State} {p : Pixel} (hp : pixRead s.pos s = .ok p)
    (hb : bytes ≠ []) (hr : s.cap < s.len + bytes.length) : emitRecord bytes s = .fault .outBeyondCapacity := by
  rw [emitRecord, withPixel_of_ok hp, emitBytes_of_no_room _ _ hb hr, andThen_fault]

theorem encode_ne_nil (i : Instr) : encode i ≠ [] := by
  cases i <;> simp [encode]

/-- The meaning of a well-formed DIFF is its byte and the common update. -/
theorem exec_diff_of_wf {dr dg db : Int} (hw : (Instr.diff dr dg db).wf = true) (s : State) :
    exec (.diff dr dg db) s = emitRecord (encode (.diff dr dg db)) s :=
  if_pos hw

/-- The meaning of a well-formed LUMA is its two bytes and the common update. -/
theorem exec_luma_of_wf {dg drdg dbdg : Int} (hw : (Instr.luma dg drdg dbdg).wf = true) (s : State) :
    exec (.luma dg drdg dbdg) s = emitRecord (encode (.luma dg drdg dbdg)) s :=
  if_pos hw

/-- The meaning of a well-formed RUN is its byte, then the counter cleared (43_run.md R172). -/
theorem exec_run_of_wf {n : Nat} (hw : (Instr.run n).wf = true) (s : State) :
    exec (.run n) s = andThen (emitBytes (encode (.run n)) s) fun t => .next { t with run := 0 } :=
  if_pos hw

/-- FOOTER is its bytes, then the phase set (44_framing.md R196). -/
theorem exec_footer_eq (s : State) :
    exec .footer s = andThen (emitBytes (encode .footer) s) fun t => .next { t with phase := .done } := rfl

/-- Settles O27: a record is its bytes after its pixel has been read, and RUN, HEADER and FOOTER are their bytes first, so
each stops where the read or the bytes stop. -/
theorem noPixelOrNoRoomFaults : Obligations.NoPixelOrNoRoomFaults := by
  constructor
  · intro i s hw hi
    have he : exec i s = emitRecord (encode i) s := by
      rcases hi with ⟨k, rfl⟩ | ⟨dr, dg, db, rfl⟩ | ⟨dg, drdg, dbdg, rfl⟩ | ⟨r, g, b, rfl⟩ | ⟨r, g, b, a, rfl⟩
      · rfl
      · exact exec_diff_of_wf hw s
      · exact exec_luma_of_wf hw s
      · rfl
      · rfl
    rw [he]
    refine ⟨fun hn => ?_, fun hn hl => ?_, fun hn hl hr => ?_⟩
    · exact emitRecord_of_no_pixel (pixRead_of_npix_le hn)
    · exact emitRecord_of_no_pixel (pixRead_of_pix_length_le hn hl)
    · exact emitRecord_of_no_room (pixRead_ok.2 ⟨hn, List.getElem?_eq_getElem hl⟩) (encode_ne_nil i) hr
  · intro i s hw hi hr
    have hstop := emitBytes_of_no_room _ s (encode_ne_nil i) hr
    rcases hi with ⟨n, rfl⟩ | ⟨w, h, rfl⟩ | rfl
    · rw [exec_run_of_wf hw, hstop, andThen_fault]
    · rw [exec_header_eq, hstop, andThen_fault]
    · rw [exec_footer_eq, hstop, andThen_fault]

end Sys2Proof.Machine
end

section
/-! PROOF. A step of the encoder appends bytes to OUT that do not depend on what OUT holds (20_memory.md R53, R54). The property
is closed under the ways in which the model builds a step, so it is proved once for each operation. -/

namespace Sys2Proof.Machine

/-- `f` leads from `s` to `t` by appending `bs`, and from `s` with any other OUT it appends the same bytes and leaves the same
registers. -/
structure Appends (f : State → Result) (s t : State) (bs : List Byte) : Prop where
  len_eq : t.len = s.len + bs.length
  cap_eq : t.cap = s.cap
  room : bs = [] ∨ t.len ≤ t.cap
  any_out : ∀ m, f { s with out := m } = .next { t with out := Memory.writeBytes m s.len bs }

/-- Whenever `f` answers a next state, it has only appended to OUT, whatever OUT held. -/
def AppendsOnly (f : State → Result) : Prop := ∀ s t, f s = .next t → ∃ bs, Appends f s t bs

theorem Appends.out_eq {f : State → Result} {s t : State} {bs : List Byte} (ha : Appends f s t bs) (h : f s = .next t) :
    t.out = Memory.writeBytes s.out s.len bs :=
  congrArg State.out (Host.Outcome.next.inj (h.symm.trans (ha.any_out s.out)))

/-! ### The ways in which a step is built -/

theorem appendsOnly_fault (r : Fault) : AppendsOnly fun _ => .fault r := by
  rintro s t ⟨⟩

theorem appendsOnly_refused (r : Refusal) : AppendsOnly fun _ => .refused r := by
  rintro s t ⟨⟩

/-- Writes of registers other than `len` and `cap` append nothing. -/
theorem appendsOnly_registers (g : State → State) (hlen : ∀ s, (g s).len = s.len := by intros; rfl)
    (hcap : ∀ s, (g s).cap = s.cap := by intros; rfl)
    (hout : ∀ s m, g { s with out := m } = { g s with out := m } := by intros; rfl) :
    AppendsOnly fun s => .next (g s) := by
  rintro s _ ⟨⟩
  exact ⟨[], hlen s, hcap s, .inl rfl, fun m => congrArg Host.Outcome.next (hout s m)⟩

theorem emitBytes_appendsOnly (bs : List Byte) : AppendsOnly (emitBytes bs) := by
  intro s t h
  obtain rfl := emitBytes_eq_next h
  refine ⟨bs, rfl, rfl, emitBytes_room h, fun m => ?_⟩
  rcases emitBytes_room h with rfl | hr
  · rfl
  · exact emitBytes_of_room bs { s with out := m } hr

theorem AppendsOnly.seq {f g : State → Result} (hf : AppendsOnly f) (hg : AppendsOnly g) :
    AppendsOnly fun s => andThen (f s) g := by
  intro s t h
  obtain ⟨u, hu, ht⟩ := andThen_eq_next.1 h
  obtain ⟨bs, hbs⟩ := hf s u hu
  obtain ⟨cs, hcs⟩ := hg u t ht
  refine ⟨bs ++ cs, ?_, hcs.cap_eq.trans hbs.cap_eq, ?_, fun m => ?_⟩
  · rw [hcs.len_eq, hbs.len_eq, List.length_append, Nat.add_assoc]
  · rcases hcs.room with rfl | hr
    · rw [List.append_nil, hcs.len_eq, hcs.cap_eq]
      exact hbs.room
    · exact .inr hr
  · rw [hbs.any_out, andThen_next, hcs.any_out, Memory.writeBytes_append, ← hbs.len_eq]

/-- A step may choose what to do by anything it reads of the state but OUT. -/
theorem appendsOnly_of_choice {α : Type} {k : State → α} {f : State → Result} (hk : ∀ s m, k { s with out := m } = k s)
    (hf : ∀ x, ∃ g, AppendsOnly g ∧ ∀ s, k s = x → f s = g s) : AppendsOnly f := by
  intro s t h
  obtain ⟨g, hg, he⟩ := hf (k s)
  obtain ⟨bs, hbs⟩ := hg s t (he s rfl ▸ h)
  exact ⟨bs, hbs.len_eq, hbs.cap_eq, hbs.room, fun m => (he _ (hk s m)).trans (hbs.any_out m)⟩

theorem AppendsOnly.branch {c : State → Prop} [∀ s, Decidable (c s)] {f g : State → Result}
    (hf : AppendsOnly f) (hg : AppendsOnly g) (hc : ∀ s m, c { s with out := m } = c s := by intros; rfl) :
    AppendsOnly fun s => if c s then f s else g s :=
  appendsOnly_of_choice hc fun p => by
    by_cases hp : p
    · exact ⟨f, hf, fun s h => if_pos (h ▸ hp)⟩
    · exact ⟨g, hg, fun s h => if_neg (h ▸ hp)⟩

theorem AppendsOnly.onPixel {f : Pixel → State → Result} (hf : ∀ p, AppendsOnly (f p)) :
    AppendsOnly fun s => withPixel s fun p => f p s :=
  appendsOnly_of_choice (k := fun s => pixRead s.pos s) (fun _ _ => rfl) fun r => by
    cases r with
    | ok p => exact ⟨f p, hf p, fun s h => withPixel_of_ok h _⟩
    | error e => exact ⟨fun _ => .fault e, appendsOnly_fault e, fun s h => by rw [withPixel, h]⟩

/-! ### The instructions -/

theorem emitRecord_appendsOnly (bytes : List Byte) : AppendsOnly (emitRecord bytes) :=
  .onPixel fun _ => .seq (emitBytes_appendsOnly bytes) (appendsOnly_registers _)

/-- RUN appends its byte and clears the counter (43_run.md R172). -/
theorem execRun_appendsOnly (n : Nat) : AppendsOnly (execRun n) :=
  .branch (.seq (emitBytes_appendsOnly [runByte n]) (appendsOnly_registers _)) (appendsOnly_refused _)

theorem exec_appendsOnly (i : Instr) : AppendsOnly (exec i) := by
  cases i with
  | index k => exact emitRecord_appendsOnly _
  | diff dr dg db => exact .branch (emitRecord_appendsOnly _) (appendsOnly_refused _)
  | luma dg drdg dbdg => exact .branch (emitRecord_appendsOnly _) (appendsOnly_refused _)
  | run n => exact execRun_appendsOnly n
  | rgb r g b => exact emitRecord_appendsOnly _
  | rgba r g b a => exact emitRecord_appendsOnly _
  | header w h =>
    rw [funext (exec_header_eq w h)]
    exact .seq (emitBytes_appendsOnly _) (appendsOnly_registers _)
  | footer => exact .seq (emitBytes_appendsOnly _) (appendsOnly_registers _)

/-! ### The sequencing -/

theorem exec_chosen_appendsOnly {k : State → Instr} (hk : ∀ s m, k { s with out := m } = k s) :
    AppendsOnly fun s => exec (k s) s :=
  appendsOnly_of_choice hk fun i => ⟨exec i, exec_appendsOnly i, fun s h => by rw [h]⟩

theorem flushRun_appendsOnly : AppendsOnly flushRun :=
  exec_chosen_appendsOnly fun _ _ => rfl

theorem flushPending_appendsOnly : AppendsOnly flushPending :=
  .branch flushRun_appendsOnly (appendsOnly_registers id)

theorem extendRun_appendsOnly : AppendsOnly extendRun :=
  have hcount : AppendsOnly fun s => .next (countRun s) := appendsOnly_registers countRun
  .branch (hcount.seq flushRun_appendsOnly) hcount

theorem pixelBody_appendsOnly (p : Pixel) : AppendsOnly (pixelBody p) :=
  .branch extendRun_appendsOnly
    (.seq flushPending_appendsOnly (exec_chosen_appendsOnly fun _ _ => rfl))

theorem pixelStep_appendsOnly : AppendsOnly pixelStep :=
  .onPixel fun p => .seq (pixelBody_appendsOnly p) (appendsOnly_registers _)

theorem pixelsPhase_appendsOnly : AppendsOnly pixelsPhase :=
  .branch pixelStep_appendsOnly
    (.branch (appendsOnly_registers _) (appendsOnly_fault _))

theorem flushStep_appendsOnly : AppendsOnly flushStep :=
  .seq flushPending_appendsOnly (appendsOnly_registers _)

theorem encoderStep_appendsOnly : AppendsOnly encoderStep := by
  refine appendsOnly_of_choice (k := State.phase) (fun _ _ => rfl) fun ph => ?_
  have hstop : AppendsOnly fun _ => .fault .noStepEnabled := appendsOnly_fault _
  cases ph with
  | header => exact ⟨_, exec_chosen_appendsOnly (k := fun s => .header s.w s.h) fun _ _ => rfl,
      fun s h => by simp only [encoderStep, h]⟩
  | pixels => exact ⟨_, pixelsPhase_appendsOnly, fun s h => by simp only [encoderStep, h]⟩
  | flush => exact ⟨_, flushStep_appendsOnly, fun s h => by simp only [encoderStep, h]⟩
  | footer => exact ⟨_, exec_appendsOnly .footer, fun s h => by simp only [encoderStep, h]⟩
  | idle => exact ⟨_, hstop, fun s h => by simp only [encoderStep, h]⟩
  | done => exact ⟨_, hstop, fun s h => by simp only [encoderStep, h]⟩
  | failed => exact ⟨_, hstop, fun s h => by simp only [encoderStep, h]⟩

/-! ### The statements -/

/-- Settles O39: the appended bytes stand at the old `len` and up, and had room. -/
theorem outputIsAppendOnly : Obligations.OutputIsAppendOnly := by
  intro s t hh h
  rw [step_of_no_host hh] at h
  obtain ⟨bs, ha⟩ := encoderStep_appendsOnly s t h
  have hlen := ha.len_eq
  rw [ha.out_eq h]
  refine ⟨by omega, fun a hab => ?_, fun a hlo hhi => ?_, fun hlt => ?_⟩
  · exact Memory.read_writeBytes_outside bs s.out (hlen ▸ hab)
  · exact read_appendOut_listed bs s hlo (by rwa [appendOut_len, ← hlen])
  · refine ha.room.resolve_left ?_
    rintro rfl
    simp only [List.length_nil] at hlen
    omega

/-- Settles O40: over any contents of OUT the step appends the same bytes, so they read alike. -/
theorem blockNeverReadsItsOutput : Obligations.BlockNeverReadsItsOutput := by
  intro s t m hh h
  rw [step_of_no_host hh] at h
  obtain ⟨bs, ha⟩ := encoderStep_appendsOnly s t h
  refine ⟨Memory.writeBytes m s.len bs, ?_, fun a hlo hhi => ?_⟩
  · rw [step_of_no_host (s := { s with out := m }) hh, ha.any_out]
  · obtain ⟨k, rfl⟩ := Nat.exists_eq_add_of_le hlo
    have hk : k < bs.length := by
      rw [ha.len_eq] at hhi
      omega
    rw [ha.out_eq h, Memory.read_writeBytes_inside _ _ _ _ hk, Memory.read_writeBytes_inside _ _ _ _ hk]

end Sys2Proof.Machine
end

section
/-! PROOF. The byte layout of PIX (20_memory.md R51). -/

namespace Sys2Proof.Machine

theorem pixelsOfBytes_toBytes_append (p : Pixel) {bytes : List Byte} {ps : List Pixel}
    (h : pixelsOfBytes bytes = some ps) : pixelsOfBytes (Pixel.toBytes p ++ bytes) = some (p :: ps) := by
  simp [Pixel.toBytes, pixelsOfBytes, h]

theorem pixelsOfBytes_flatMap_toBytes (px : List Pixel) : pixelsOfBytes (px.flatMap Pixel.toBytes) = some px := by
  induction px with
  | nil => rfl
  | cons p ps ih => exact pixelsOfBytes_toBytes_append p ih

/-- Channel `k` of pixel `i` stands at byte `4*i + k`. -/
theorem flatMap_toBytes_getElem? {px : List Pixel} {i k : Nat} {p : Pixel} (hp : px[i]? = some p) (hk : k < 4) :
    (px.flatMap Pixel.toBytes)[4 * i + k]? = (Pixel.toBytes p)[k]? := by
  induction px generalizing i with
  | nil => simp at hp
  | cons q ps ih =>
    have hlen : (Pixel.toBytes q).length = 4 := rfl
    rw [List.flatMap_cons]
    cases i with
    | zero =>
      obtain rfl : q = p := by simpa using hp
      rw [Nat.mul_zero, Nat.zero_add]
      exact List.getElem?_append_left (by omega)
    | succ i =>
      rw [List.getElem?_append_right (by omega), hlen, show 4 * (i + 1) + k - 4 = 4 * i + k by omega]
      exact ih (by simpa using hp)

/-- Settles O49. -/
theorem pixelBytesAreRgba : Obligations.PixelBytesAreRgba := by
  refine fun px => ⟨pixelsOfBytes_flatMap_toBytes px, fun i p hp => ?_⟩
  exact ⟨flatMap_toBytes_getElem? (k := 0) hp (by decide), flatMap_toBytes_getElem? (k := 1) hp (by decide),
    flatMap_toBytes_getElem? (k := 2) hp (by decide), flatMap_toBytes_getElem? (k := 3) hp (by decide)⟩

end Sys2Proof.Machine
end

section
/-! PROOF. The bytes of the encodings as numbers: a packed byte is the sum of its fields (30_encoding.md R85 to R93). -/

namespace Sys2Proof

/-! ### Fields of a byte -/

/-- The field of `n` bits from bit `lo` is a quotient and a remainder (00_scope.md R10). -/
theorem byteField_eq (b : Byte) {lo n : Nat} (hn : n ≤ 8) : byteField b lo n = b.toNat / 2 ^ lo % 2 ^ n := by
  have hmask : 2 ^ n - 1 < 2 ^ 8 := Nat.sub_one_lt_of_le (Nat.two_pow_pos n) (Nat.pow_le_pow_right (by decide) hn)
  rw [byteField, BitVec.toNat_and, BitVec.toNat_ushiftRight, BitVec.toNat_ofNat, Nat.mod_eq_of_lt hmask,
    Nat.and_two_pow_sub_one_eq_mod, Nat.shiftRight_eq_div_pow]

theorem byteField_zero (b : Byte) {n : Nat} (hn : n ≤ 8) : byteField b 0 n = b.toNat % 2 ^ n := by
  rw [byteField_eq b hn, Nat.pow_zero, Nat.div_one]

/-- The tag in bits 7:6 is one of the four multiples of 64 (30_encoding.md R81). -/
theorem toNat_and_tagMask (b : Byte) : (b &&& 0xC0).toNat = 64 * (b.toNat / 64) := by
  decide +revert

theorem and_tagMask_eq_iff (b t : Byte) : b &&& 0xC0 = t ↔ 64 * (b.toNat / 64) = t.toNat := by
  rw [← toNat_and_tagMask, BitVec.toNat_inj]

/-- A field of `w` bits at bit `k` is added by the or, if the fields so far, with the sum `v`, end above it. -/
theorem toNat_or_field {a : Byte} {v x : Int} (w k : Nat) (hk : k + w ≤ 8) (ha : (a.toNat : Int) = v)
    (hv : 2 ^ (k + w) ∣ v) (hx : 0 ≤ x ∧ x < 2 ^ w) :
    ((a ||| BitVec.ofInt 8 x <<< k).toNat : Int) = v + 2 ^ k * x := by
  subst ha
  obtain ⟨q, hq⟩ : 2 ^ (k + w) ∣ a.toNat := by exact_mod_cast hv
  obtain ⟨n, rfl⟩ := Int.eq_ofNat_of_zero_le hx.1
  have hn : n < 2 ^ w := by exact_mod_cast hx.2
  have hlt : 2 ^ k * n < 2 ^ (k + w) := by
    rw [Nat.pow_add]
    exact Nat.mul_lt_mul_of_pos_left hn (Nat.two_pow_pos k)
  have hlt8 : 2 ^ k * n < 2 ^ 8 := Nat.lt_of_lt_of_le hlt (Nat.pow_le_pow_right (by decide) hk)
  have hfield : (BitVec.ofInt 8 (n : Int) <<< k).toNat = 2 ^ k * n := by
    rw [BitVec.ofInt_natCast, BitVec.toNat_shiftLeft, Nat.shiftLeft_eq, BitVec.toNat_ofNat, Nat.mod_mul_mod,
      Nat.mul_comm, Nat.mod_eq_of_lt hlt8]
  rw [BitVec.toNat_or, hfield, hq, ← Nat.two_pow_add_eq_or_of_lt hlt]
  push_cast
  rfl

/-- The field of the lowest bits, which is not shifted. -/
theorem toNat_or_lowField {a : Byte} {v x : Int} (w : Nat) (hw : w ≤ 8) (ha : (a.toNat : Int) = v)
    (hv : 2 ^ w ∣ v) (hx : 0 ≤ x ∧ x < 2 ^ w) : ((a ||| BitVec.ofInt 8 x).toNat : Int) = v + x := by
  simpa using toNat_or_field w 0 (by omega) ha (by simpa using hv) hx

/-! ### The bytes of the records -/

theorem toNat_indexByte (k : Slot) : (indexByte k).toNat = k.toNat := by
  have hk : k.toNat < 2 ^ 8 := by omega
  have hzero : indexByte k = k.setWidth 8 := BitVec.zero_or
  rw [hzero, BitVec.toNat_setWidth, Nat.mod_eq_of_lt hk]

theorem toNat_diffByte {dr dg db : Int} (h : (Instr.diff dr dg db).wf = true) :
    ((diffByte dr dg db).toNat : Int) = 0x40 + 16 * (dr + 2) + 4 * (dg + 2) + (db + 2) := by
  obtain ⟨hr, hg, hb⟩ := Instr.wf_diff.1 h
  have h4 := toNat_or_field (a := Config.tagDiff) (v := 0x40) (x := dr + 2) 2 4 (by decide) rfl (by decide) (by omega)
  have h2 := toNat_or_field (x := dg + 2) 2 2 (by decide) h4 (by omega) (by omega)
  exact toNat_or_lowField (x := db + 2) 2 (by decide) h2 (by omega) (by omega)

theorem toNat_lumaByte0 {dg : Int} (h : -32 ≤ dg ∧ dg ≤ 31) : ((lumaByte0 dg).toNat : Int) = 0x80 + (dg + 32) :=
  toNat_or_lowField (v := 0x80) (x := dg + 32) 6 (by decide) rfl (by decide) (by omega)

theorem toNat_lumaByte1 {drdg dbdg : Int} (hr : -8 ≤ drdg ∧ drdg ≤ 7) (hb : -8 ≤ dbdg ∧ dbdg ≤ 7) :
    ((lumaByte1 drdg dbdg).toNat : Int) = 16 * (drdg + 8) + (dbdg + 8) := by
  have h4 := toNat_or_field (a := 0#8) (v := 0) (x := drdg + 8) 4 4 (by decide) rfl (by decide) (by omega)
  rw [BitVec.zero_or, Int.zero_add] at h4
  exact toNat_or_lowField (x := dbdg + 8) 4 (by decide) h4 (by omega) (by omega)

theorem toNat_runByte {n : Nat} (h : (Instr.run n).wf = true) : (runByte n).toNat = 0xC0 + (n - 1) := by
  obtain ⟨h1, h62⟩ := Instr.wf_run.1 h
  have h0 := toNat_or_lowField (a := Config.tagRun) (v := 0xC0) (x := (n - 1 : Nat)) 6 (by decide) rfl (by decide)
    (by omega)
  rw [BitVec.ofInt_natCast] at h0
  exact_mod_cast h0

/-! ### The 32-bit dimensions of the header (20_memory.md R56) -/

theorem toNat_append_byte {n : Nat} (v : BitVec n) (b : Byte) : (v ++ b).toNat = 2 ^ 8 * v.toNat + b.toNat := by
  rw [BitVec.toNat_append, Nat.shiftLeft_eq, Nat.mul_comm, Nat.two_pow_add_eq_or_of_lt b.isLt]

theorem toNat_be32Value (b3 b2 b1 b0 : Byte) :
    (be32Value b3 b2 b1 b0).toNat = 2 ^ 24 * b3.toNat + 2 ^ 16 * b2.toNat + 2 ^ 8 * b1.toNat + b0.toNat := by
  rw [be32Value, toNat_append_byte, toNat_append_byte, toNat_append_byte]
  omega

theorem toNat_extractByte (v : Dim) (k : Nat) : (v.extractLsb' k 8).toNat = v.toNat / 2 ^ k % 2 ^ 8 := by
  rw [BitVec.extractLsb'_toNat, Nat.shiftRight_eq_div_pow]

theorem be32Value_extractBytes (v : Dim) :
    be32Value (v.extractLsb' 24 8) (v.extractLsb' 16 8) (v.extractLsb' 8 8) (v.extractLsb' 0 8) = v := by
  apply BitVec.eq_of_toNat_eq
  simp only [toNat_be32Value, toNat_extractByte]
  omega

theorem be32Bytes_be32Value (b3 b2 b1 b0 : Byte) : be32Bytes (be32Value b3 b2 b1 b0) = [b3, b2, b1, b0] := by
  have hbyte : ∀ (k : Nat) (b : Byte), (be32Value b3 b2 b1 b0).toNat / 2 ^ k % 2 ^ 8 = b.toNat →
      (be32Value b3 b2 b1 b0).extractLsb' k 8 = b :=
    fun k b h => BitVec.eq_of_toNat_eq (by rw [toNat_extractByte, h])
  rw [toNat_be32Value] at hbyte
  rw [be32Bytes, hbyte 24 b3 (by omega), hbyte 16 b2 (by omega), hbyte 8 b1 (by omega), hbyte 0 b0 (by omega)]
end Sys2Proof
end

section
/-! PROOF. The decoder and the encoder are each other's inverse (30_encoding.md R85 to R100). -/

namespace Sys2Proof.Machine

/-! ### The record decoder, one equation for each range of the leading byte (30_encoding.md R94) -/

/-- The ranges of 30_encoding.md R94. -/
theorem leadingByte_cases (b : Byte) :
    b.toNat ≤ 0x3F ∨ (0x40 ≤ b.toNat ∧ b.toNat ≤ 0x7F) ∨ (0x80 ≤ b.toNat ∧ b.toNat ≤ 0xBF)
      ∨ (0xC0 ≤ b.toNat ∧ b.toNat ≤ 0xFD) ∨ b = Config.tagRgb ∨ b = Config.tagRgba := by
  rw [BitVec.toNat_eq (y := Config.tagRgb), BitVec.toNat_eq (y := Config.tagRgba)]
  have hb := b.isLt
  have hrgb : Config.tagRgb.toNat = 0xFE := rfl
  have hrgba : Config.tagRgba.toNat = 0xFF := rfl
  omega

theorem ne_escapes_of_le {b : Byte} (h : b.toNat ≤ 0xFD) : b ≠ Config.tagRgb ∧ b ≠ Config.tagRgba := by
  constructor
  · rintro rfl
    exact absurd h (by decide)
  · rintro rfl
    exact absurd h (by decide)

/-- The tests of a byte below the escapes: it is neither of them, and bits 7:6 are a tag of two bits. -/
theorem tag_tests {b t : Byte} (h : b.toNat ≤ 0xFD) (ht : 64 * (b.toNat / 64) = t.toNat) :
    b ≠ Config.tagRgb ∧ b ≠ Config.tagRgba ∧ b &&& 0xC0 = t :=
  ⟨(ne_escapes_of_le h).1, (ne_escapes_of_le h).2, (and_tagMask_eq_iff b t).2 ht⟩

theorem decodeRecord_of_index {b : Byte} (h : b.toNat ≤ 0x3F) (rest : List Byte) :
    decodeRecord (b :: rest) = .ok (.index (BitVec.ofNat 6 b.toNat), rest) := by
  obtain ⟨hrgb, hrgba, htag⟩ := tag_tests (b := b) (t := Config.tagIndex) (by omega) (by show _ = 0x00; omega)
  have hfield : b.toNat % 2 ^ 6 = b.toNat := by omega
  refine (if_neg hrgb).trans ((if_neg hrgba).trans ?_)
  rw [if_pos htag, byteField_zero b (by decide), hfield]

theorem decodeRecord_of_diff {b : Byte} (h : 0x40 ≤ b.toNat ∧ b.toNat ≤ 0x7F) (rest : List Byte) :
    decodeRecord (b :: rest) =
      .ok (.diff ((b.toNat / 16 % 4 : Nat) - 2) ((b.toNat / 4 % 4 : Nat) - 2) ((b.toNat % 4 : Nat) - 2), rest) := by
  obtain ⟨hrgb, hrgba, htag⟩ := tag_tests (b := b) (t := Config.tagDiff) (by omega) (by show _ = 0x40; omega)
  refine (if_neg hrgb).trans ((if_neg hrgba).trans ?_)
  rw [htag, if_neg (by decide), if_pos rfl, byteField_eq b (by decide), byteField_eq b (by decide),
    byteField_zero b (by decide)]
  rfl

theorem decodeRecord_of_luma {b : Byte} (h : 0x80 ≤ b.toNat ∧ b.toNat ≤ 0xBF) (c : Byte) (rest : List Byte) :
    decodeRecord (b :: c :: rest) =
      .ok (.luma ((b.toNat % 64 : Nat) - 32) ((c.toNat / 16 : Nat) - 8) ((c.toNat % 16 : Nat) - 8), rest) := by
  obtain ⟨hrgb, hrgba, htag⟩ := tag_tests (b := b) (t := Config.tagLuma) (by omega) (by show _ = 0x80; omega)
  have hfield : c.toNat / 2 ^ 4 % 2 ^ 4 = c.toNat / 16 := by omega
  refine (if_neg hrgb).trans ((if_neg hrgba).trans ?_)
  rw [htag, if_neg (by decide), if_neg (by decide), if_pos rfl]
  simp only [byteField_zero b (n := 6) (by decide), byteField_eq c (lo := 4) (n := 4) (by decide),
    byteField_zero c (n := 4) (by decide), hfield]
  rfl

theorem decodeRecord_of_luma_alone {b : Byte} (h : 0x80 ≤ b.toNat ∧ b.toNat ≤ 0xBF) :
    decodeRecord [b] = .error .truncated := by
  obtain ⟨hrgb, hrgba, htag⟩ := tag_tests (b := b) (t := Config.tagLuma) (by omega) (by show _ = 0x80; omega)
  refine (if_neg hrgb).trans ((if_neg hrgba).trans ?_)
  rw [htag, if_neg (by decide), if_neg (by decide), if_pos rfl]

theorem decodeRecord_of_run {b : Byte} (h : 0xC0 ≤ b.toNat ∧ b.toNat ≤ 0xFD) (rest : List Byte) :
    decodeRecord (b :: rest) = .ok (.run (b.toNat % 64 + 1), rest) := by
  obtain ⟨hrgb, hrgba, htag⟩ := tag_tests (t := Config.tagRun) h.2 (by show _ = 0xC0; omega)
  refine (if_neg hrgb).trans ((if_neg hrgba).trans ?_)
  rw [htag, if_neg (by decide), if_neg (by decide), if_neg (by decide), byteField_zero b (by decide)]
  rfl

theorem decodeRecord_rgb (r g b : Byte) (rest : List Byte) :
    decodeRecord (Config.tagRgb :: r :: g :: b :: rest) = .ok (.rgb r g b, rest) := rfl

theorem decodeRecord_rgba (r g b a : Byte) (rest : List Byte) :
    decodeRecord (Config.tagRgba :: r :: g :: b :: a :: rest) = .ok (.rgba r g b a, rest) := rfl

/-! ### From an instruction to its bytes and back -/

theorem decodeRecord_indexByte (k : Slot) (rest : List Byte) :
    decodeRecord (indexByte k :: rest) = .ok (.index k, rest) := by
  have hk := toNat_indexByte k
  rw [decodeRecord_of_index (by omega), hk, BitVec.ofNat_toNat, BitVec.setWidth_eq]

theorem decodeRecord_diffByte {dr dg db : Int} (h : (Instr.diff dr dg db).wf = true) (rest : List Byte) :
    decodeRecord (diffByte dr dg db :: rest) = .ok (.diff dr dg db, rest) := by
  have hb := toNat_diffByte h
  obtain ⟨_, _, _⟩ := Instr.wf_diff.1 h
  rw [decodeRecord_of_diff (by omega)]
  congr <;> omega

theorem decodeRecord_lumaBytes {dg drdg dbdg : Int} (h : (Instr.luma dg drdg dbdg).wf = true) (rest : List Byte) :
    decodeRecord (lumaByte0 dg :: lumaByte1 drdg dbdg :: rest) = .ok (.luma dg drdg dbdg, rest) := by
  obtain ⟨hg, hr, hb⟩ := Instr.wf_luma.1 h
  have h0 := toNat_lumaByte0 hg
  have h1 := toNat_lumaByte1 hr hb
  rw [decodeRecord_of_luma (by omega)]
  congr <;> omega

theorem decodeRecord_runByte {n : Nat} (h : (Instr.run n).wf = true) (rest : List Byte) :
    decodeRecord (runByte n :: rest) = .ok (.run n, rest) := by
  have hb := toNat_runByte h
  obtain ⟨_, _⟩ := Instr.wf_run.1 h
  rw [decodeRecord_of_run (by omega)]
  congr
  omega

theorem decodeHeader_encode (w h : Dim) (rest : List Byte) :
    decodeHeader (encode (.header w h) ++ rest) = .ok (.header w h, rest) := by
  have hdims : decodeHeader (encode (.header w h) ++ rest) =
      .ok (.header (be32Value (w.extractLsb' 24 8) (w.extractLsb' 16 8) (w.extractLsb' 8 8) (w.extractLsb' 0 8))
        (be32Value (h.extractLsb' 24 8) (h.extractLsb' 16 8) (h.extractLsb' 8 8) (h.extractLsb' 0 8)), rest) := rfl
  rw [hdims, be32Value_extractBytes, be32Value_extractBytes]

/-- Settles O1: each record's leading byte lies in its range, and its fields are the operands. -/
theorem decodeOfEncodeIsTheInstruction : Obligations.DecodeOfEncodeIsTheInstruction := by
  intro i rest hw
  cases i with
  | index k => exact decodeRecord_indexByte k rest
  | diff dr dg db => exact decodeRecord_diffByte hw rest
  | luma dg drdg dbdg => exact decodeRecord_lumaBytes hw rest
  | run n => exact decodeRecord_runByte hw rest
  | rgb r g b => exact decodeRecord_rgb r g b rest
  | rgba r g b a => exact decodeRecord_rgba r g b a rest
  | header w h => exact decodeHeader_encode w h rest
  | footer => rfl

/-! ### From bytes to the instruction and back -/

theorem indexByte_ofNat {b : Byte} (h : b.toNat ≤ 0x3F) : indexByte (BitVec.ofNat 6 b.toNat) = b := by
  apply BitVec.eq_of_toNat_eq
  rw [toNat_indexByte, BitVec.toNat_ofNat]
  omega

/-- The fields of a DIFF byte are operands of DIFF, and it is their encoding. -/
theorem diffByte_of_fields {b : Byte} (h : 0x40 ≤ b.toNat ∧ b.toNat ≤ 0x7F) {dr dg db : Int}
    (hr : dr = (b.toNat / 16 % 4 : Nat) - 2) (hg : dg = (b.toNat / 4 % 4 : Nat) - 2)
    (hb : db = (b.toNat % 4 : Nat) - 2) :
    (Instr.diff dr dg db).wf = true ∧ diffByte dr dg db = b := by
  have hw : (Instr.diff dr dg db).wf = true := Instr.wf_diff.2 (by omega)
  have hbyte := toNat_diffByte hw
  exact ⟨hw, BitVec.eq_of_toNat_eq (by omega)⟩

/-- The fields of two LUMA bytes are operands of LUMA, and they are their encoding. -/
theorem lumaBytes_of_fields {b c : Byte} (h : 0x80 ≤ b.toNat ∧ b.toNat ≤ 0xBF) {dg drdg dbdg : Int}
    (hg : dg = (b.toNat % 64 : Nat) - 32) (hr : drdg = (c.toNat / 16 : Nat) - 8)
    (hb : dbdg = (c.toNat % 16 : Nat) - 8) :
    (Instr.luma dg drdg dbdg).wf = true ∧ lumaByte0 dg = b ∧ lumaByte1 drdg dbdg = c := by
  have hc := c.isLt
  have hw : (Instr.luma dg drdg dbdg).wf = true := Instr.wf_luma.2 (by omega)
  have h0 := toNat_lumaByte0 (dg := dg) (by omega)
  have h1 := toNat_lumaByte1 (drdg := drdg) (dbdg := dbdg) (by omega) (by omega)
  exact ⟨hw, BitVec.eq_of_toNat_eq (by omega), BitVec.eq_of_toNat_eq (by omega)⟩

theorem runByte_of_field {b : Byte} (h : 0xC0 ≤ b.toNat ∧ b.toNat ≤ 0xFD) :
    (Instr.run (b.toNat % 64 + 1)).wf = true ∧ runByte (b.toNat % 64 + 1) = b := by
  have hw : (Instr.run (b.toNat % 64 + 1)).wf = true := Instr.wf_run.2 (by omega)
  have hbyte := toNat_runByte hw
  exact ⟨hw, BitVec.eq_of_toNat_eq (by omega)⟩

/-- The escapes are followed by their raw channels, or the record is cut off. -/
theorem decodeRecord_rgb_eq_ok {cs rest : List Byte} {i : Instr}
    (h : decodeRecord (Config.tagRgb :: cs) = .ok (i, rest)) :
    ∃ r g b, i = .rgb r g b ∧ cs = r :: g :: b :: rest := by
  match cs, h with
  | r :: g :: b :: cs, h =>
    rw [decodeRecord_rgb] at h
    cases h
    exact ⟨r, g, b, rfl, rfl⟩

theorem decodeRecord_rgba_eq_ok {cs rest : List Byte} {i : Instr}
    (h : decodeRecord (Config.tagRgba :: cs) = .ok (i, rest)) :
    ∃ r g b a, i = .rgba r g b a ∧ cs = r :: g :: b :: a :: rest := by
  match cs, h with
  | r :: g :: b :: a :: cs, h =>
    rw [decodeRecord_rgba] at h
    cases h
    exact ⟨r, g, b, a, rfl, rfl⟩

theorem decodeRecord_eq_ok {bs rest : List Byte} {i : Instr} (h : decodeRecord bs = .ok (i, rest)) :
    i.wf = true ∧ i.part = .records ∧ bs = encode i ++ rest := by
  cases bs with
  | nil => cases h
  | cons b cs =>
    rcases leadingByte_cases b with hb | hb | hb | hb | rfl | rfl
    · rw [decodeRecord_of_index hb] at h
      cases h
      exact ⟨rfl, rfl, by simp only [encode, indexByte_ofNat hb, List.singleton_append]⟩
    · rw [decodeRecord_of_diff hb] at h
      cases h
      obtain ⟨hw, hbyte⟩ := diffByte_of_fields hb rfl rfl rfl
      exact ⟨hw, rfl, by simp only [encode, hbyte, List.singleton_append]⟩
    · cases cs with
      | nil =>
        rw [decodeRecord_of_luma_alone hb] at h
        cases h
      | cons c cs =>
        rw [decodeRecord_of_luma hb] at h
        cases h
        obtain ⟨hw, h0, h1⟩ := lumaBytes_of_fields (c := c) hb rfl rfl rfl
        exact ⟨hw, rfl, by simp only [encode, h0, h1, List.cons_append, List.nil_append]⟩
    · rw [decodeRecord_of_run hb] at h
      cases h
      obtain ⟨hw, hbyte⟩ := runByte_of_field hb
      exact ⟨hw, rfl, by simp only [encode, hbyte, List.singleton_append]⟩
    · obtain ⟨r, g, b, rfl, rfl⟩ := decodeRecord_rgb_eq_ok h
      exact ⟨rfl, rfl, rfl⟩
    · obtain ⟨r, g, b, a, rfl, rfl⟩ := decodeRecord_rgba_eq_ok h
      exact ⟨rfl, rfl, rfl⟩

theorem decodeHeader_eq_ok {bs rest : List Byte} {i : Instr} (h : decodeHeader bs = .ok (i, rest)) :
    ∃ w h, i = .header w h ∧ bs = encode (.header w h) ++ rest := by
  unfold decodeHeader at h
  split at h
  · next m0 m1 m2 m3 w3 w2 w1 w0 h3 h2 h1 h0 c s rest' =>
    split_ifs at h with hm hc hs
    cases h
    simp only [ne_eq, not_not] at hm hc hs
    refine ⟨_, _, rfl, ?_⟩
    rw [encode, be32Bytes_be32Value, be32Bytes_be32Value, ← hm, ← hc, ← hs]
    rfl
  · cases h

theorem decodeFooter_eq_ok {bs rest : List Byte} {i : Instr} (h : decodeFooter bs = .ok (i, rest)) :
    i = .footer ∧ bs = encode .footer ++ rest := by
  unfold decodeFooter at h
  split at h
  · split_ifs at h with hf
    cases h
    exact ⟨rfl, by rw [encode, ← hf]; rfl⟩
  · cases h

/-- Settles O2, part by part; a record by the range of its leading byte. -/
theorem decodedBytesAreTheEncoding : Obligations.DecodedBytesAreTheEncoding := by
  intro part bs rest i h
  cases part with
  | header =>
    obtain ⟨w, h, rfl, hbs⟩ := decodeHeader_eq_ok h
    exact ⟨rfl, rfl, hbs⟩
  | records => exact decodeRecord_eq_ok h
  | footer =>
    obtain ⟨rfl, hbs⟩ := decodeFooter_eq_ok h
    exact ⟨rfl, rfl, hbs⟩

/-! ### The leading byte of a record (30_encoding.md R94, R96) -/

/-- Four bytes after the leading byte are enough for every record. -/
theorem eq_cons_of_four_le {cs : List Byte} (h : 4 ≤ cs.length) :
    ∃ c1 c2 c3 c4 rest, cs = c1 :: c2 :: c3 :: c4 :: rest := by
  match cs, h with
  | c1 :: c2 :: c3 :: c4 :: rest, _ => exact ⟨c1, c2, c3, c4, rest, rfl⟩

/-- Settles O3, range by range: the other ranges' premises fail. -/
theorem everyLeadingByteIsAssigned : Obligations.EveryLeadingByteIsAssigned := by
  refine ⟨fun b cs hcs => ?_, rfl, rfl, fun w h => ⟨rfl, rfl⟩⟩
  obtain ⟨c1, c2, c3, c4, rest, rfl⟩ := eq_cons_of_four_le hcs
  have hrgb : Config.tagRgb.toNat = 0xFE := rfl
  have hrgba : Config.tagRgba.toNat = 0xFF := rfl
  rcases leadingByte_cases b with hb | hb | hb | hb | rfl | rfl
  · exact ⟨_, _, decodeRecord_of_index hb _, fun _ => ⟨_, rfl⟩, by omega, by omega, by omega, by omega, by omega⟩
  · exact ⟨_, _, decodeRecord_of_diff hb _, by omega, fun _ => ⟨_, _, _, rfl⟩, by omega, by omega, by omega, by omega⟩
  · exact ⟨_, _, decodeRecord_of_luma hb _ _, by omega, by omega, fun _ => ⟨_, _, _, rfl⟩, by omega, by omega, by omega⟩
  · exact ⟨_, _, decodeRecord_of_run hb _, by omega, by omega, by omega, fun _ => ⟨_, rfl⟩, by omega, by omega⟩
  · exact ⟨_, _, decodeRecord_rgb _ _ _ _, by omega, by omega, by omega, by omega, fun _ => ⟨_, _, _, rfl⟩, by omega⟩
  · exact ⟨_, _, decodeRecord_rgba _ _ _ _ _, by omega, by omega, by omega, by omega, by omega,
      fun _ => ⟨_, _, _, _, rfl⟩⟩

/-- Settles O4, range by range. -/
theorem leadingByteAloneGivesTheLength : Obligations.LeadingByteAloneGivesTheLength := by
  intro b cs hcs n
  obtain ⟨c1, c2, c3, c4, rest, rfl⟩ := eq_cons_of_four_le hcs
  have below (h : b.toNat ≤ 0xFD) : n = if 0x80 ≤ b.toNat ∧ b.toNat ≤ 0xBF then 2 else 1 :=
    (if_neg (ne_escapes_of_le h).1).trans (if_neg (ne_escapes_of_le h).2)
  rcases leadingByte_cases b with hb | hb | hb | hb | rfl | rfl
  · rw [below (by omega), if_neg (by omega)]
    exact ⟨_, decodeRecord_of_index hb _, rfl, rfl⟩
  · rw [below (by omega), if_neg (by omega)]
    exact ⟨_, decodeRecord_of_diff hb _, rfl, rfl⟩
  · rw [below (by omega), if_pos hb]
    exact ⟨_, decodeRecord_of_luma hb _ _, rfl, rfl⟩
  · rw [below hb.2, if_neg (by omega)]
    exact ⟨_, decodeRecord_of_run hb _, rfl, rfl⟩
  · exact ⟨_, decodeRecord_rgb _ _ _ _, rfl, rfl⟩
  · exact ⟨_, decodeRecord_rgba _ _ _ _ _, rfl, rfl⟩

/-! ### Words of the spec -/

theorem decode_of_encode_eq {i : Instr} {bs : List Byte} (hw : i.wf = true) (he : encode i = bs) :
    decode i.part bs = .ok (i, []) := by
  rw [← he, ← List.append_nil (encode i)]
  exact decodeOfEncodeIsTheInstruction i [] hw

/-- Settles O5: each list of bytes is the encoding of its instruction. -/
theorem wordsOfTheSpecDecode : Obligations.WordsOfTheSpecDecode :=
  ⟨decode_of_encode_eq (i := .diff 1 (-1) 0) rfl (by decide), decode_of_encode_eq (i := .luma 6 4 2) rfl (by decide),
    decode_of_encode_eq (i := .run 37) rfl (by decide), decode_of_encode_eq (i := .rgb 200 100 50) rfl (by decide),
    decode_of_encode_eq (i := .rgba 0 0 0 255) rfl (by decide), decode_of_encode_eq (i := .index 9) rfl (by decide),
    decode_of_encode_eq (i := .header 10 11) rfl (by decide), decode_of_encode_eq (i := .footer) rfl (by decide)⟩

end Sys2Proof.Machine
end

section
/-! PROOF. A block of equal pixels in the functional form (43_run.md R174). -/

namespace Sys2Proof.Machine

/-- The counter cleared, as a flush leaves it. -/
def CodecState.flushed (c : CodecState) : CodecState := { c with run := 0 }

/-- At a different pixel, or at the end of the stream, the pending run is flushed in front of everything else. -/
theorem recordsFrom_flush (c : CodecState) {rest : List Pixel} (h : ∀ q ∈ rest.head?, q ≠ c.prev) :
    recordsFrom c rest = pendingRun c.run ++ recordsFrom c.flushed rest := by
  cases rest with
  | nil => simp [recordsFrom, CodecState.flushed, pendingRun]
  | cons q rest =>
    have hq : q ≠ c.prev := h q rfl
    simp [recordsFrom, codecBytes, codecNext, CodecState.flushed, pendingRun, eqPrev, hq]

theorem runs_of_lt {m : Nat} (h : m < 62) : (runs m).flatMap encode = pendingRun m := by
  have hdiv : m / 62 = 0 := by omega
  have hmod : m % 62 = m := by omega
  by_cases h0 : m = 0 <;> simp [runs, pendingRun, Config.runMax, hdiv, hmod, h0, Nat.pos_iff_ne_zero]

theorem runs_add_runMax (m : Nat) : runs (62 + m) = .run 62 :: runs m := by
  simp [runs, Config.runMax, Nat.add_div_left, List.replicate_succ]

/-- A pixel equal to `prev` that brings the run to its cap emits RUN 62 (43_run.md R171). -/
theorem recordsFrom_prev_at_cap {c : CodecState} (h : c.run = 61) (ps : List Pixel) :
    recordsFrom c (c.prev :: ps) = encode (.run 62) ++ recordsFrom c.flushed ps := by
  simp [recordsFrom, codecBytes, codecNext, eqPrev, h, CodecState.flushed]

/-- A pixel equal to `prev` below the cap is counted and emits nothing. -/
theorem recordsFrom_prev_below_cap {c : CodecState} (h : c.run ≠ 61) (ps : List Pixel) :
    recordsFrom c (c.prev :: ps) = recordsFrom { c with run := c.run + 1 } ps := by
  have hne : ¬ c.run + 1 = 62 := by omega
  simp [recordsFrom, codecBytes, codecNext, eqPrev, Config.runMax, hne]

/-- With a run pending, the block continues it: together they are one `RUNS`. -/
theorem recordsFrom_block (c : CodecState) (m : Nat) {rest : List Pixel} (hrun : c.run ≤ 61)
    (h : ∀ q ∈ rest.head?, q ≠ c.prev) :
    recordsFrom c (List.replicate m c.prev ++ rest) =
      (runs (c.run + m)).flatMap encode ++ recordsFrom c.flushed rest := by
  induction m generalizing c with
  | zero => rw [runs_of_lt (by omega)]; exact recordsFrom_flush c h
  | succ m ih =>
    rw [List.replicate_succ, List.cons_append]
    by_cases hcap : c.run = 61
    · have hrest : recordsFrom c.flushed (List.replicate m c.prev ++ rest) =
          (runs (0 + m)).flatMap encode ++ recordsFrom c.flushed rest := ih c.flushed (Nat.zero_le 61) h
      have hlen : c.run + (m + 1) = 62 + m := by omega
      rw [recordsFrom_prev_at_cap hcap, hrest, hlen, runs_add_runMax, List.flatMap_cons, Nat.zero_add,
        List.append_assoc]
    · have hrest : recordsFrom { c with run := c.run + 1 } (List.replicate m c.prev ++ rest) =
          (runs (c.run + 1 + m)).flatMap encode ++ recordsFrom c.flushed rest :=
        ih { c with run := c.run + 1 } (by show c.run + 1 ≤ 61; omega) h
      have hlen : c.run + (m + 1) = c.run + 1 + m := by omega
      rw [recordsFrom_prev_below_cap hcap, hrest, hlen]

/-- Settles O7: with no run pending there is nothing to continue. -/
theorem blockOfEqualPixelsIsRuns : Obligations.BlockOfEqualPixelsIsRuns := by
  intro c m rest hrun h
  have hflushed : c.flushed = c := by rw [CodecState.flushed, ← hrun]
  rw [recordsFrom_block c m (by omega) h, hflushed, hrun, Nat.zero_add]

end Sys2Proof.Machine
end

section
/-! PROOF. Well-formed instructions are never refused (30_encoding.md R86 to R88), and complete where there is room. -/

namespace Sys2Proof.Machine

/-- The meaning of a well-formed record other than RUN is its bytes and the common update. -/
theorem exec_record_of_wf {i : Instr} (hw : i.wf = true) (hp : i.part = .records) (hr : ∀ n, i ≠ .run n) (s : State) :
    exec i s = emitRecord (encode i) s := by
  cases i with
  | index k => rfl
  | diff dr dg db => exact exec_diff_of_wf hw s
  | luma dg drdg dbdg => exact exec_luma_of_wf hw s
  | run n => exact absurd rfl (hr n)
  | rgb r g b => rfl
  | rgba r g b a => rfl
  | header w h => cases hp
  | footer => cases hp

/-! ### Refusals -/

/-- Emitting bytes stops for want of room or not at all. -/
theorem emitBytes_ne_refused (bs : List Byte) (s : State) (r : Refusal) : emitBytes bs s ≠ .refused r := by
  by_cases hb : bs = []
  · rw [hb, emitBytes]
    nofun
  · by_cases hroom : s.len + bs.length ≤ s.cap
    · rw [emitBytes_of_room bs s hroom]
      nofun
    · rw [emitBytes_of_no_room bs s hb (by omega)]
      nofun

theorem andThen_registers_ne_refused {o : Result} {g : State → State} {r : Refusal} (h : o ≠ .refused r) :
    andThen o (fun t => .next (g t)) ≠ .refused r := by
  cases o with
  | next s => nofun
  | fault f => nofun
  | refused r' => simpa using h

theorem emitRecord_ne_refused (bs : List Byte) (s : State) (r : Refusal) : emitRecord bs s ≠ .refused r := by
  unfold emitRecord withPixel
  split
  · exact andThen_registers_ne_refused (emitBytes_ne_refused bs s r)
  · nofun

theorem exec_ne_refused_of_wf {i : Instr} (hw : i.wf = true) (s : State) (r : Refusal) : exec i s ≠ .refused r := by
  cases i with
  | run n =>
    rw [exec_run_of_wf hw]
    exact andThen_registers_ne_refused (emitBytes_ne_refused _ s r)
  | header w h =>
    rw [exec_header_eq]
    exact andThen_registers_ne_refused (emitBytes_ne_refused _ s r)
  | footer =>
    rw [exec_footer_eq]
    exact andThen_registers_ne_refused (emitBytes_ne_refused _ s r)
  | _ =>
    rw [exec_record_of_wf hw rfl nofun]
    exact emitRecord_ne_refused _ s r

/-- Settles O26: the three checks of the operands, and no well-formed instruction is refused. -/
theorem onlyIllFormedOperandsAreRefused : Obligations.OnlyIllFormedOperandsAreRefused := by
  refine ⟨fun s dr dg db hw => ?_, fun s dg drdg dbdg hw => ?_, fun s n hn => ?_, fun i s r h => ?_⟩
  · simp [exec, execDiff, hw]
  · simp [exec, execLuma, hw]
  · have hw : ¬ (Instr.run n).wf = true := by
      rw [Instr.wf_run]
      omega
    simp [exec, execRun, hw]
  · by_contra hw
    exact exec_ne_refused_of_wf (Bool.not_eq_false _ ▸ hw) s r h

/-! ### Completion -/

/-- With its pixel readable, if it is a record of a pixel, and room for its bytes, a well-formed instruction completes
and appends exactly its encoding. -/
theorem exec_completes {i : Instr} {s : State} (hw : i.wf = true)
    (hp : i.part = .records → (∀ n, i ≠ .run n) → ∃ p, pixRead s.pos s = .ok p)
    (hroom : s.len + (encode i).length ≤ s.cap) :
    ∃ t, exec i s = .next t ∧ t.len = s.len + (encode i).length ∧ t.out = Memory.writeBytes s.out s.len (encode i) := by
  have hemit := emitBytes_of_room (encode i) s hroom
  cases i with
  | run n =>
    rw [exec_run_of_wf hw, hemit, andThen_next]
    exact ⟨_, rfl, appendOut_len _ _, appendOut_out _ _⟩
  | header w h =>
    rw [exec_header_eq, hemit, andThen_next]
    exact ⟨_, rfl, appendOut_len _ _, appendOut_out _ _⟩
  | footer =>
    rw [exec_footer_eq, hemit, andThen_next]
    exact ⟨_, rfl, appendOut_len _ _, appendOut_out _ _⟩
  | _ =>
    obtain ⟨p, hp⟩ := hp rfl nofun
    rw [exec_record_of_wf hw rfl nofun, emitRecord_of_room hp hroom]
    exact ⟨_, rfl, appendOut_len _ _, appendOut_out _ _⟩

end Sys2Proof.Machine
end

section
/-! PROOF. The selector (42_strategy_select.md R152): its operands as offsets on the ring, and what it never answers
(30_encoding.md R95). -/

namespace Sys2Proof.Machine

/-! ### Ring differences -/

/-- The difference to an offset is the offset (41_wraparound.md R125). -/
theorem sext8_add_ofInt_sub (o : Byte) {d : Int} (h : -128 ≤ d ∧ d ≤ 127) : sext8 (o + BitVec.ofInt 8 d - o) = d := by
  rw [BitVec.add_comm, BitVec.add_sub_cancel, sext8_eq_toInt]
  exact BitVec.toInt_ofInt_eq_self (by decide) (by omega) (by omega)

theorem wrapDiff_add_ofInt (o : Byte) {d lo hi : Int} (h : -128 ≤ d ∧ d ≤ 127) :
    wrapDiff o (o + BitVec.ofInt 8 d) lo hi = if lo ≤ d ∧ d ≤ hi then some d else none := by
  simp only [wrapDiff, sext8_add_ofInt_sub o h]

theorem eq_add_of_wrapDiff {o c : Byte} {lo hi d : Int} (h : wrapDiff o c lo hi = some d) :
    c = o + BitVec.ofInt 8 d := by
  rw [(wrapDiff_eq_some.1 h).1, add_delta]

theorem lumaBase_add (o : Byte) (lg d : Int) : lumaBase o lg + BitVec.ofInt 8 d = o + BitVec.ofInt 8 (lg + d) := by
  rw [lumaBase, BitVec.ofInt_add, BitVec.add_assoc]

/-! ### The operands of DIFF and LUMA and the pixel at their offsets -/

@[simp] theorem offsetPixel_zero (q : Pixel) : offsetPixel q 0 0 0 = q := by
  simp [offsetPixel]

theorem eq_offsetPixel {q p : Pixel} {dr dg db : Int} (hr : p.r = q.r + BitVec.ofInt 8 dr)
    (hg : p.g = q.g + BitVec.ofInt 8 dg) (hb : p.b = q.b + BitVec.ofInt 8 db) (ha : p.a = q.a) :
    p = offsetPixel q dr dg db := by
  rw [offsetPixel, ← hr, ← hg, ← hb, ← ha]

theorem eq_offsetPixel_of_diffOperands {prev p : Pixel} {d : DiffOperands} (ha : p.a = prev.a)
    (h : diffOperands prev p = some d) : p = offsetPixel prev d.dr d.dg d.db := by
  obtain ⟨hr, hg, hb⟩ := diffOperands_eq_some.1 h
  exact eq_offsetPixel (eq_add_of_wrapDiff hr) (eq_add_of_wrapDiff hg) (eq_add_of_wrapDiff hb) ha

theorem eq_offsetPixel_of_lumaOperands {prev p : Pixel} {l : LumaOperands} (ha : p.a = prev.a)
    (h : lumaOperands prev p = some l) : p = offsetPixel prev (l.lg + l.lr) l.lg (l.lg + l.lb) := by
  obtain ⟨hg, hr, hb⟩ := lumaOperands_eq_some.1 h
  refine eq_offsetPixel ?_ (eq_add_of_wrapDiff hg) ?_ ha
  · rw [← lumaBase_add, ← eq_add_of_wrapDiff hr]
  · rw [← lumaBase_add, ← eq_add_of_wrapDiff hb]

theorem diffOperands_offsetPixel (q : Pixel) {dr dg db : Int} (h : (Instr.diff dr dg db).wf = true) :
    diffOperands q (offsetPixel q dr dg db) = some ⟨dr, dg, db⟩ := by
  obtain ⟨hr, hg, hb⟩ := Instr.wf_diff.1 h
  rw [diffOperands_eq_some, offsetPixel, wrapDiff_add_ofInt _ (by omega), wrapDiff_add_ofInt _ (by omega),
    wrapDiff_add_ofInt _ (by omega)]
  exact ⟨if_pos hr, if_pos hg, if_pos hb⟩

theorem lumaOperands_offsetPixel (q : Pixel) {dg drdg dbdg : Int} (h : (Instr.luma dg drdg dbdg).wf = true) :
    lumaOperands q (offsetPixel q (dg + drdg) dg (dg + dbdg)) = some ⟨dg, drdg, dbdg⟩ := by
  obtain ⟨hg, hr, hb⟩ := Instr.wf_luma.1 h
  rw [lumaOperands_eq_some, offsetPixel, ← lumaBase_add, ← lumaBase_add, wrapDiff_add_ofInt _ (by omega),
    wrapDiff_add_ofInt _ (by omega), wrapDiff_add_ofInt _ (by omega)]
  exact ⟨if_pos hg, if_pos hr, if_pos hb⟩

theorem wf_of_diffOperands {prev p : Pixel} {d : DiffOperands} (h : diffOperands prev p = some d) :
    (Instr.diff d.dr d.dg d.db).wf = true := by
  obtain ⟨hr, hg, hb⟩ := diffOperands_eq_some.1 h
  exact Instr.wf_diff.2 ⟨(wrapDiff_eq_some.1 hr).2, (wrapDiff_eq_some.1 hg).2, (wrapDiff_eq_some.1 hb).2⟩

theorem wf_of_lumaOperands {prev p : Pixel} {l : LumaOperands} (h : lumaOperands prev p = some l) :
    (Instr.luma l.lg l.lr l.lb).wf = true := by
  obtain ⟨hg, hr, hb⟩ := lumaOperands_eq_some.1 h
  exact Instr.wf_luma.2 ⟨(wrapDiff_eq_some.1 hg).2, (wrapDiff_eq_some.1 hr).2, (wrapDiff_eq_some.1 hb).2⟩

/-- Where DIFF does not fit, LUMA's deltas are not in DIFF's windows. -/
theorem not_wf_diff_of_lumaOperands {prev p : Pixel} {l : LumaOperands} (ha : p.a = prev.a)
    (hd : diffOperands prev p = none) (hl : lumaOperands prev p = some l) :
    ¬ (Instr.diff (l.lg + l.lr) l.lg (l.lg + l.lb)).wf = true := by
  intro hw
  rw [eq_offsetPixel_of_lumaOperands ha hl, diffOperands_offsetPixel prev hw] at hd
  cases hd

theorem diffFits_of_diffOperands_eq_none {prev p : Pixel} (h : diffOperands prev p = none) :
    diffFits prev p = false := by
  by_contra hf
  rw [diffOperands_of_fits (Bool.not_eq_false _ ▸ hf)] at h
  cases h

theorem lumaFits_of_lumaOperands_eq_none {prev p : Pixel} (h : lumaOperands prev p = none) :
    lumaFits prev p = false := by
  by_contra hf
  rw [lumaOperands_of_fits (Bool.not_eq_false _ ▸ hf)] at h
  cases h

/-- Settles O29, by the five answers of the selector. -/
theorem selectorNeverProducesTheListedRecords : Obligations.SelectorNeverProducesTheListedRecords := by
  intro prev c p hne
  dsimp only
  rcases selectRecord_cases prev c p with ⟨hh, hi⟩ | ⟨hh, ha, d, hd, hi⟩ | ⟨hh, ha, hd, l, hl, hi⟩
    | ⟨hh, ha, hd, hl, hi⟩ | ⟨hh, ha, hi⟩ <;> rw [hi]
  · exact ⟨rfl, rfl, nofun, nofun, nofun, nofun, nofun, by simp [hh]⟩
  · refine ⟨wf_of_diffOperands hd, rfl, nofun, fun hzero => hne ?_, nofun, nofun, nofun, by simp [hh]⟩
    obtain ⟨hr, hg, hb⟩ := Instr.diff.inj hzero
    rw [eq_offsetPixel_of_diffOperands ha hd, hr, hg, hb, offsetPixel_zero]
  · refine ⟨wf_of_lumaOperands hl, rfl, nofun, nofun, ?_, nofun, nofun, by simp [hh]⟩
    rintro _ _ _ ⟨⟩ ⟨hg1, hg2, hr1, hr2, hb1, hb2⟩
    exact not_wf_diff_of_lumaOperands ha hd hl (Instr.wf_diff.2 ⟨⟨hr1, hr2⟩, ⟨hg1, hg2⟩, hb1, hb2⟩)
  · exact ⟨rfl, rfl, nofun, nofun, nofun, nofun,
      fun _ _ _ _ => ⟨diffFits_of_diffOperands_eq_none hd, lumaFits_of_lumaOperands_eq_none hl⟩, by simp [hh]⟩
  · refine ⟨rfl, rfl, nofun, nofun, nofun, ?_, nofun, by simp [hh]⟩
    rintro _ _ _ _ ⟨⟩
    exact ha

end Sys2Proof.Machine
end

section
/-! PROOF. A placed instruction is the one that the next step runs (notes/assumptions/12.md). -/

namespace Sys2Proof.Machine

/-! ### The pixels that placing uses -/

theorem pixelHash_pixelOfHash (k : Slot) : pixelHash (pixelOfHash k) = k := by
  apply BitVec.eq_of_toNat_eq
  have hk := k.isLt
  have hzero : (0 : Byte).toNat = 0 := rfl
  simp only [pixelHash, pixelOfHash, BitVec.toNat_ofNat, hzero]
  omega

theorem pixelHash_collider (p : Pixel) : pixelHash (collider p) = pixelHash p := by
  apply BitVec.eq_of_toNat_eq
  have hstep : (p.r + 64).toNat = (p.r.toNat + 64) % 256 := BitVec.toNat_add p.r 64
  simp only [pixelHash, collider, BitVec.toNat_ofNat, hstep]
  omega

theorem add_ne_self {b t : Byte} (h : t ≠ 0) : b + t ≠ b := by
  simpa using h

theorem collider_ne (p : Pixel) : collider p ≠ p :=
  fun h => add_ne_self (by decide) (congrArg Pixel.r h)

theorem hit_evict (c : Cache) (p : Pixel) : hit (evict c p) p = false := by
  unfold hit evict
  by_cases h : cacheLookup c p = true
  · rw [if_pos h, cacheLookup, cacheRead_write_same]
    exact decide_eq_false (collider_ne p)
  · rw [if_neg h]
    exact Bool.not_eq_true _ ▸ h

theorem hit_cacheWrite (c : Cache) (p : Pixel) : hit (cacheWrite c (pixelHash p) p) p = true := by
  rw [hit, cacheLookup, cacheRead_write_same]
  exact decide_eq_true rfl

theorem withOtherAlpha_a_ne (q p : Pixel) : p.a ≠ (withOtherAlpha q p).a := by
  unfold withOtherAlpha
  split
  · next h =>
    rw [← h]
    exact (add_ne_self (by decide)).symm
  · next h => exact fun e => h e.symm

/-- From half-way round the ring the difference is -128, below every window (41_wraparound.md R129). -/
theorem wrapDiff_antipode (b : Byte) {lo hi : Int} (h : -128 < lo) : wrapDiff (b + 128) b lo hi = none := by
  have hb := wrapDiff_add_ofInt (b + 128) (d := -128) (lo := lo) (hi := hi) (by decide)
  have hcancel : (128 : Byte) + BitVec.ofInt 8 (-128) = 0#8 := by decide
  rw [BitVec.add_assoc b, hcancel, BitVec.add_zero] at hb
  rw [hb, if_neg (by omega)]

theorem diffOperands_antipode (p : Pixel) : diffOperands (antipode p) p = none := by
  rw [diffOperands, antipode, wrapDiff_antipode _ (by decide)]

theorem lumaOperands_antipode (p : Pixel) : lumaOperands (antipode p) p = none := by
  rw [lumaOperands, antipode, wrapDiff_antipode _ (by decide)]

/-- On the ring the deltas to an offset pixel are the offsets. -/
theorem deltas_offsetPixel (q : Pixel) {dr dg db : Int} (hr : -128 ≤ dr ∧ dr ≤ 127) (hg : -128 ≤ dg ∧ dg ≤ 127)
    (hb : -128 ≤ db ∧ db ≤ 127) :
    sext8 ((offsetPixel q dr dg db).r - q.r) = dr ∧ sext8 ((offsetPixel q dr dg db).g - q.g) = dg
      ∧ sext8 ((offsetPixel q dr dg db).b - q.b) = db :=
  ⟨sext8_add_ofInt_sub q.r hr, sext8_add_ofInt_sub q.g hg, sext8_add_ofInt_sub q.b hb⟩

/-- Only the offsets zero lead back to the pixel itself. -/
theorem offsetPixel_eq_self {q : Pixel} {dr dg db : Int} (hr : -128 ≤ dr ∧ dr ≤ 127) (hg : -128 ≤ dg ∧ dg ≤ 127)
    (hb : -128 ≤ db ∧ db ≤ 127) (h : offsetPixel q dr dg db = q) : dr = 0 ∧ dg = 0 ∧ db = 0 := by
  obtain ⟨er, eg, eb⟩ := deltas_offsetPixel q hr hg hb
  rw [h, BitVec.sub_self] at er eg eb
  exact ⟨er.symm, eg.symm, eb.symm⟩

/-- If DIFF fitted the pixel at LUMA's offsets, they would lie in DIFF's windows. -/
theorem diffOperands_offsetPixel_eq_none (q : Pixel) {dg drdg dbdg : Int} (hw : (Instr.luma dg drdg dbdg).wf = true)
    (hd : (Instr.diff (dg + drdg) dg (dg + dbdg)).wf = false) :
    diffOperands q (offsetPixel q (dg + drdg) dg (dg + dbdg)) = none := by
  obtain ⟨hg, hr, hb⟩ := Instr.wf_luma.1 hw
  obtain ⟨er, eg, eb⟩ :=
    deltas_offsetPixel q (dr := dg + drdg) (dg := dg) (db := dg + dbdg) (by omega) (by omega) (by omega)
  cases h : diffOperands q (offsetPixel q (dg + drdg) dg (dg + dbdg)) with
  | none => rfl
  | some d =>
    obtain ⟨wr, wg, wb⟩ := diffOperands_eq_some.1 h
    have hfits := wf_of_diffOperands h
    rw [(wrapDiff_eq_some.1 wr).1, (wrapDiff_eq_some.1 wg).1, (wrapDiff_eq_some.1 wb).1, er, eg, eb, hd] at hfits
    cases hfits

/-! ### The selector on a placed pixel -/

theorem selectRecord_of_hit {prev : Pixel} {c : Cache} {p : Pixel} (h : hit c p = true) :
    selectRecord prev c p = .index (pixelHash p) :=
  if_pos h

theorem selectRecord_of_diff {prev : Pixel} {c : Cache} {p : Pixel} {dr dg db : Int} (h : hit c p = false)
    (ha : p.a = prev.a) (hd : diffOperands prev p = some ⟨dr, dg, db⟩) : selectRecord prev c p = .diff dr dg db := by
  simp [selectRecord, alphaSame, h, ha, hd]

theorem selectRecord_of_luma {prev : Pixel} {c : Cache} {p : Pixel} {lg lr lb : Int} (h : hit c p = false)
    (ha : p.a = prev.a) (hd : diffOperands prev p = none) (hl : lumaOperands prev p = some ⟨lg, lr, lb⟩) :
    selectRecord prev c p = .luma lg lr lb := by
  simp [selectRecord, alphaSame, h, ha, hd, hl]

theorem selectRecord_of_rgb {prev : Pixel} {c : Cache} {p : Pixel} (h : hit c p = false) (ha : p.a = prev.a)
    (hd : diffOperands prev p = none) (hl : lumaOperands prev p = none) : selectRecord prev c p = .rgb p.r p.g p.b := by
  simp [selectRecord, alphaSame, h, ha, hd, hl]

theorem selectRecord_of_rgba {prev : Pixel} {c : Cache} {p : Pixel} (h : hit c p = false) (ha : p.a ≠ prev.a) :
    selectRecord prev c p = .rgba p.r p.g p.b p.a := by
  simp [selectRecord, alphaSame, h, ha]

theorem selectRecord_place_index (prev : Pixel) (c : Cache) (k : Slot) :
    selectRecord prev (cacheWrite c k (pixelOfHash k)) (pixelOfHash k) = .index k := by
  have hhit := hit_cacheWrite c (pixelOfHash k)
  rw [pixelHash_pixelOfHash] at hhit
  rw [selectRecord_of_hit hhit, pixelHash_pixelOfHash]

theorem selectRecord_place_diff (q : Pixel) (c : Cache) {dr dg db : Int} (hw : (Instr.diff dr dg db).wf = true) :
    selectRecord q (evict c (offsetPixel q dr dg db)) (offsetPixel q dr dg db) = .diff dr dg db :=
  selectRecord_of_diff (hit_evict c _) rfl (diffOperands_offsetPixel q hw)

theorem selectRecord_place_luma (q : Pixel) (c : Cache) {dg drdg dbdg : Int} (hw : (Instr.luma dg drdg dbdg).wf = true)
    (hd : (Instr.diff (dg + drdg) dg (dg + dbdg)).wf = false) :
    selectRecord q (evict c (offsetPixel q (dg + drdg) dg (dg + dbdg))) (offsetPixel q (dg + drdg) dg (dg + dbdg)) =
      .luma dg drdg dbdg :=
  selectRecord_of_luma (hit_evict c _) rfl (diffOperands_offsetPixel_eq_none q hw hd) (lumaOperands_offsetPixel q hw)

theorem selectRecord_place_rgb (c : Cache) (p : Pixel) :
    selectRecord (antipode p) (evict c p) p = .rgb p.r p.g p.b :=
  selectRecord_of_rgb (hit_evict c p) rfl (diffOperands_antipode p) (lumaOperands_antipode p)

theorem selectRecord_place_rgba (q : Pixel) (c : Cache) (p : Pixel) :
    selectRecord (withOtherAlpha q p) (evict c p) p = .rgba p.r p.g p.b p.a :=
  selectRecord_of_rgba (hit_evict c p) (withOtherAlpha_a_ne q p)

/-! ### The placed state -/

theorem ne_antipode (p : Pixel) : p ≠ antipode p :=
  fun h => add_ne_self (by decide) (congrArg Pixel.r h).symm

theorem ne_withOtherAlpha (q p : Pixel) : p ≠ withOtherAlpha q p :=
  fun h => withOtherAlpha_a_ne q p (congrArg Pixel.a h)

/-- A placed record is a placed pixel, different from `prev`, for which the selector answers that record. -/
theorem placeInstr_record {i : Instr} (hi : issuable i = true) (hp : i.part = .records) (hr : ∀ n, i ≠ .run n)
    (s : State) : ∃ prev c p, placeInstr i s = placePixel prev c p s ∧ p ≠ prev ∧ selectRecord prev c p = i := by
  obtain ⟨hw, hissued⟩ := Bool.and_eq_true_iff.1 hi
  cases i with
  | index k => exact ⟨_, _, _, rfl, ne_withOtherAlpha s.prev _, selectRecord_place_index _ s.cache k⟩
  | diff dr dg db =>
    refine ⟨_, _, _, rfl, fun h => of_decide_eq_true hissued ?_, selectRecord_place_diff s.prev s.cache hw⟩
    obtain ⟨hr, hg, hb⟩ := Instr.wf_diff.1 hw
    obtain ⟨rfl, rfl, rfl⟩ := offsetPixel_eq_self (by omega) (by omega) (by omega) h
    rfl
  | luma dg drdg dbdg =>
    have hd : (Instr.diff (dg + drdg) dg (dg + dbdg)).wf = false := by simpa using hissued
    refine ⟨_, _, _, rfl, fun h => ?_, selectRecord_place_luma s.prev s.cache hw hd⟩
    obtain ⟨hg, hr, hb⟩ := Instr.wf_luma.1 hw
    obtain ⟨h1, h2, h3⟩ := offsetPixel_eq_self (by omega) (by omega) (by omega) h
    rw [h1, h3, h2] at hd
    cases hd
  | run n => exact absurd rfl (hr n)
  | rgb r g b => exact ⟨_, _, _, rfl, ne_antipode _, selectRecord_place_rgb s.cache ⟨r, g, b, s.prev.a⟩⟩
  | rgba r g b a =>
    exact ⟨_, _, _, rfl, ne_withOtherAlpha s.prev _, selectRecord_place_rgba s.prev s.cache ⟨r, g, b, a⟩⟩
  | header w h => cases hp
  | footer => cases hp

theorem flushPending_of_no_run {s : State} (h : s.run = 0) : flushPending s = .next s := by
  simp [flushPending, runPending, h]

/-- With no run pending, the PIXEL step on a pixel that differs from `prev` is the selected record and `pos + 1`. -/
theorem pixelStep_of_record {s : State} {p : Pixel} (hp : pixRead s.pos s = .ok p) (hne : p ≠ s.prev) (hr : s.run = 0) :
    pixelStep s = andThen (exec (selectRecord s.prev s.cache p) s) advancePos := by
  rw [pixelStep, withPixel_of_ok hp, pixelBody_eq, if_neg hne, flushPending_of_no_run hr, andThen_next]

theorem step_placePixel {prev : Pixel} {c : Cache} {p : Pixel} (hne : p ≠ prev) (s : State) :
    step (placePixel prev c p s) =
      andThen (exec (selectRecord prev c p) (placePixel prev c p s)) advancePos := by
  rw [step_of_no_host rfl, encoderStep_of_pixels rfl Nat.one_pos]
  exact pixelStep_of_record rfl hne rfl

theorem flushPending_of_run {s : State} (h : s.run ≠ 0) : flushPending s = exec (.run s.run.toNat) s :=
  if_pos (decide_eq_true h)

/-- With a run pending, the FLUSH step is its RUN, then the phase (44_framing.md R195). -/
theorem encoderStep_of_flush {s : State} (hph : s.phase = .flush) (hr : s.run ≠ 0) :
    encoderStep s = andThen (exec (.run s.run.toNat) s) fun t => .next { t with phase := .footer } := by
  simp only [encoderStep, hph, flushStep, flushPending_of_run hr]

/-- What the step adds after the instruction's own meaning: the phase after a flush, `pos + 1` after a record. -/
def afterExec (i : Instr) (t : State) : State :=
  match i with
  | .run _ => { t with phase := .footer }
  | .header _ _ => t
  | .footer => t
  | _ => { t with pos := t.pos + 1 }

@[simp] theorem afterExec_len (i : Instr) (t : State) : (afterExec i t).len = t.len := by
  cases i <;> rfl

@[simp] theorem afterExec_out (i : Instr) (t : State) : (afterExec i t).out = t.out := by
  cases i <;> rfl

@[simp] theorem placeInstr_len (i : Instr) (s : State) : (placeInstr i s).len = s.len := by
  cases i <;> rfl

theorem andThen_next_self (o : Result) : andThen o (fun t => .next t) = o := by
  cases o <;> rfl

theorem step_placeInstr {i : Instr} (hi : issuable i = true) (s : State) :
    step (placeInstr i s) = andThen (exec i (placeInstr i s)) fun t => .next (afterExec i t) := by
  cases i with
  | run n =>
    obtain ⟨h1, h62⟩ := Instr.wf_run.1 (Bool.and_eq_true_iff.1 hi).1
    have hn : (placeInstr (.run n) s).run.toNat = n := Nat.mod_eq_of_lt (by omega)
    have hrun : (placeInstr (.run n) s).run ≠ 0 := by
      intro h
      have h0 : n = 0 := by rw [← hn, h]; rfl
      omega
    rw [step_of_no_host rfl, encoderStep_of_flush rfl hrun, hn]
    rfl
  | header w h =>
    rw [step_of_no_host rfl]
    exact (andThen_next_self _).symm
  | footer =>
    rw [step_of_no_host rfl]
    exact (andThen_next_self _).symm
  | _ =>
    obtain ⟨prev, c, p, hplace, hne, hsel⟩ := placeInstr_record hi rfl nofun s
    rw [hplace, step_placePixel hne, hsel]
    rfl

theorem placeInstr_room (i : Instr) (s : State) :
    s.len + (encode i).length ≤ (placeInstr i s).cap := by
  cases i with
  | run n => exact Nat.le_max_right _ _
  | header w h => exact Nat.le_max_right _ _
  | footer => exact Nat.le_max_right _ _
  | _ =>
    refine Nat.le_trans (Nat.add_le_add_left ?_ s.len) (Nat.le_max_right _ _)
    simp [encode, Config.maxRecord]

theorem placeInstr_pixel {i : Instr} (hi : issuable i = true) (hp : i.part = .records) (hr : ∀ n, i ≠ .run n)
    (s : State) : ∃ p, pixRead (placeInstr i s).pos (placeInstr i s) = .ok p := by
  obtain ⟨prev, c, p, hplace, -⟩ := placeInstr_record hi hp hr s
  exact ⟨p, by rw [hplace]; rfl⟩

theorem withFetchWord_of_decode {nbits w : Nat} {i : Instr} (h : decodeTableWord nbits w = some i) (s : State) :
    s.withFetchWord nbits w = placeInstr i s := by
  simp only [State.withFetchWord, h]

/-- Settles O32: the placed instruction is what the step runs, and it has its pixel and room. -/
theorem placedWordIsRunByTheNextStep : Obligations.PlacedWordIsRunByTheNextStep := by
  intro s nbits w i hdec hi u
  have hu : u = placeInstr i s := withFetchWord_of_decode hdec s
  have hstep := step_placeInstr hi s
  have hlen := placeInstr_len i s
  obtain ⟨t, ht, htlen, htout⟩ := exec_completes (s := placeInstr i s) (Bool.and_eq_true_iff.1 hi).1
    (fun hp hr => placeInstr_pixel hi hp hr s) (hlen ▸ placeInstr_room i s)
  rw [hu]
  constructor
  · rw [hstep]
    cases i <;> rfl
  · refine ⟨afterExec i t, by rw [hstep, ht, andThen_next], by rw [afterExec_len, htlen, hlen], fun k hk => ?_⟩
    rw [afterExec_out, htout, ← hlen, Memory.read_writeBytes_inside _ _ _ _ hk]

end Sys2Proof.Machine
end

section
/-! PROOF. The hash and the running cache at encode start (40_hash_cache.md R110 to R113). -/

namespace Sys2Proof.Machine

/-! ### The weighted sum (40_hash_cache.md R110) -/

/-- The sum that `HASH` reduces, formed in the natural numbers. -/
def weightedSum (p : Pixel) : Nat := 3 * p.r.toNat + 5 * p.g.toNat + 7 * p.b.toNat + 11 * p.a.toNat

theorem pixelHash_eq_ofNat (p : Pixel) : pixelHash p = BitVec.ofNat 6 (weightedSum p) := rfl

theorem toNat_pixelHash (p : Pixel) : (pixelHash p).toNat = weightedSum p % 64 := by
  rw [pixelHash_eq_ofNat, BitVec.toNat_ofNat]

theorem weightedSum_le (p : Pixel) : weightedSum p ≤ 6630 := by
  have hr := p.r.isLt
  have hg := p.g.isLt
  have hb := p.b.isLt
  have ha := p.a.isLt
  unfold weightedSum
  omega

/-- Settles O11: the hash and the bound for every pixel, then the table of R112 by evaluation. -/
theorem hashIsTheWeightedSum : Obligations.HashIsTheWeightedSum :=
  ⟨fun p => ⟨toNat_pixelHash p, weightedSum_le p⟩, by decide⟩

/-! ### The width of the sum (40_hash_cache.md R111) -/

/-- The sum formed in `w`-bit wrapping arithmetic is the exact sum reduced modulo `2 ^ w`. -/
theorem wrappingSum_eq_ofNat (w : Nat) (p : Pixel) :
    BitVec.ofNat w 3 * p.r.setWidth w + BitVec.ofNat w 5 * p.g.setWidth w + BitVec.ofNat w 7 * p.b.setWidth w
      + BitVec.ofNat w 11 * p.a.setWidth w = BitVec.ofNat w (weightedSum p) := by
  simp only [weightedSum, BitVec.ofNat_add, BitVec.ofNat_mul, BitVec.ofNat_toNat]

/-- Settles O12: 64 divides `2 ^ w`, and the low 6 bits of the wrapped sum are those of the exact one. -/
theorem hashIgnoresTheWidthOfTheSum : Obligations.HashIgnoresTheWidthOfTheSum := by
  intro w p hw
  have hdvd : 64 ∣ 2 ^ w := Nat.pow_dvd_pow 2 hw
  refine ⟨fun x => Nat.mod_mod_of_dvd x hdvd, ?_⟩
  rw [wrappingSum_eq_ofNat, BitVec.setWidth_ofNat_of_le hw, pixelHash_eq_ofNat]

/-! ### The cache at encode start (40_hash_cache.md R113) -/

theorem hit_eq_true {c : Cache} {p : Pixel} : hit c p = true ↔ cacheRead c (pixelHash p) = p :=
  decide_eq_true_iff

/-- An untouched slot holds a pixel value, so that value hits before anything was written (10_state.md R24). -/
theorem hit_cacheInit {p : Pixel} : hit cacheInit p = true ↔ p = Config.cacheInitPixel := by
  rw [hit_eq_true, cacheRead_init, eq_comm]

/-- Settles O13: every slot holds `(0,0,0,0)`, which the initial `prev` is not. -/
theorem initialCacheHitsOnlyTheZeroPixel : Obligations.InitialCacheHitsOnlyTheZeroPixel := by
  have hprev : Config.prevInit ≠ Config.cacheInitPixel := by decide
  have hmiss : hit cacheInit Config.prevInit = false := Bool.eq_false_iff.2 (mt hit_cacheInit.1 hprev)
  exact ⟨fun _ => hit_cacheInit, by decide, hmiss, cacheRead_init⟩

end Sys2Proof.Machine
end

section
/-! PROOF. The wraparound-difference unit (41_wraparound.md R126, R129): a delta fits just when it lies in the window and
leads from the original to the candidate round the ring of 256. -/

namespace Sys2Proof.Machine

/-! ### The ring difference over the integers -/

/-- The ring law without the window (41_wraparound.md R129 item 1). With `sext8_bounds` it determines the difference. -/
theorem add_sext8_sub_emod (o c : Byte) : ((o.toNat : Int) + sext8 (c - o)) % 256 = c.toNat := by
  have ho := o.isLt
  have hc := c.isLt
  have hsub : (c - o).toNat = (256 - o.toNat + c.toNat) % 256 := BitVec.toNat_sub c o
  simp only [sext8, hsub]
  split <;> omega

/-- The signed difference is the only number of -128..127 that leads from `o` to `c` on the ring. -/
theorem eq_sext8_sub_iff {o c : Byte} {d : Int} (h : -128 ≤ d ∧ d ≤ 127) :
    d = sext8 (c - o) ↔ ((o.toNat : Int) + d) % 256 = c.toNat := by
  have hring := add_sext8_sub_emod o c
  have hbounds := sext8_bounds (c - o)
  constructor
  · rintro rfl
    exact hring
  · intro hd
    omega

/-! ### One answer of the formula and of the three branches (41_wraparound.md R126) -/

section Window

variable {o c : Byte} {lo hi : Int} (hlo : -128 ≤ lo) (hlo0 : lo ≤ 0) (hhi0 : 0 ≤ hi) (hhi : hi ≤ 127)

include hlo hhi in
theorem wrapDiff_eq_some_iff_emod {d : Int} :
    wrapDiff o c lo hi = some d ↔ (lo ≤ d ∧ d ≤ hi) ∧ ((o.toNat : Int) + d) % 256 = c.toNat := by
  rw [wrapDiff_eq_some, and_comm]
  exact and_congr_right fun hd => eq_sext8_sub_iff (by omega)

include hlo hlo0 hhi0 hhi in
/-- The branches are the three ways round the ring: no wrap, a wrap below 0, a wrap above 255. -/
theorem wrapDiff3_eq_some_iff_emod {d : Int} :
    wrapDiff3 o c lo hi = some d ↔ (lo ≤ d ∧ d ≤ hi) ∧ ((o.toNat : Int) + d) % 256 = c.toNat := by
  have ho := o.isLt
  have hc := c.isLt
  unfold wrapDiff3
  dsimp only
  split
  case isTrue => rw [Option.some.injEq]; omega
  case isFalse =>
    split
    case isTrue => rw [Option.some.injEq]; omega
    case isFalse =>
      split
      case isTrue => rw [Option.some.injEq]; omega
      case isFalse => simp only [reduceCtorEq, false_iff]; omega

include hlo hlo0 hhi0 hhi in
theorem wrapDiff3_eq_wrapDiff : wrapDiff3 o c lo hi = wrapDiff o c lo hi :=
  Option.ext fun _ => (wrapDiff3_eq_some_iff_emod hlo hlo0 hhi0 hhi).trans (wrapDiff_eq_some_iff_emod hlo hhi).symm

end Window

/-- Settles O8: both answer the one delta of the window on the ring, and two branches at once need `hi - lo ≥ 256`. -/
theorem threeBranchesAgreeWithTheFormula : Obligations.ThreeBranchesAgreeWithTheFormula := by
  intro o c lo hi hlo hlo0 hhi0 hhi o' c' case1 case2 case3
  have hwidth : hi - lo < 256 := by omega
  exact ⟨wrapDiff3_eq_wrapDiff hlo hlo0 hhi0 hhi, by omega, by omega, by omega⟩

/-! ### The laws of the unit (41_wraparound.md R129) -/

theorem wrapDiff_self (o : Byte) {lo hi : Int} (hlo0 : lo ≤ 0) (hhi0 : 0 ≤ hi) : wrapDiff o o lo hi = some 0 := by
  rw [wrapDiff_eq_some, BitVec.sub_self]
  exact ⟨rfl, hlo0, hhi0⟩

theorem sext8_sub_of_halfway {o c : Byte} (h : ((c.toNat : Int) - o.toNat) % 256 = 128) : sext8 (c - o) = -128 :=
  ((eq_sext8_sub_iff (by decide)).2 (by omega)).symm

theorem wrapDiff_eq_none_of_lt {o c : Byte} {lo hi : Int} (h : sext8 (c - o) < lo) : wrapDiff o c lo hi = none :=
  if_neg fun hd => absurd h (Int.not_lt.2 hd.1)

theorem wrapDiff_add_right (o c t : Byte) (lo hi : Int) : wrapDiff (o + t) (c + t) lo hi = wrapDiff o c lo hi := by
  rw [wrapDiff, wrapDiff, add_sub_add_right_eq_sub]

theorem wrapDiff_eq_none_or (o c : Byte) (lo hi : Int) :
    wrapDiff o c lo hi = none ∨ ∃ d, lo ≤ d ∧ d ≤ hi ∧ wrapDiff o c lo hi = some d := by
  cases h : wrapDiff o c lo hi with
  | none => exact .inl rfl
  | some d =>
    obtain ⟨-, hlo, hhi⟩ := wrapDiff_eq_some.1 h
    exact .inr ⟨d, hlo, hhi, rfl⟩

/-- Settles O9, law by law; the delta is the same in every window because the window only tests it. -/
theorem wraparoundUnitLaws : Obligations.WraparoundUnitLaws := by
  intro o c t lo hi hlo hlo0 hhi0 hhi
  refine ⟨fun d h => ((wrapDiff_eq_some_iff_emod hlo hhi).1 h).2, fun d lo' hi' d' h h' => ?_,
    wrapDiff_self o hlo0 hhi0, fun h => ?_, by decide, wrapDiff_add_right o c t lo hi, wrapDiff_eq_none_or o c lo hi⟩
  · rw [(wrapDiff_eq_some.1 h).1, (wrapDiff_eq_some.1 h').1]
  · have hd := sext8_sub_of_halfway h
    exact ⟨hd, wrapDiff_eq_none_of_lt (by omega), wrapDiff_eq_none_of_lt (by omega), wrapDiff_eq_none_of_lt (by omega)⟩

/-! ### The selected record and the pixel (42_strategy_select.md R152) -/

/-- Settles O30, by the five answers of the selector: the slot that hit, the deltas on the ring, or the raw channels. -/
theorem selectedRecordDeterminesThePixel : Obligations.SelectedRecordDeterminesThePixel := by
  intro prev c p
  rcases selectRecord_cases prev c p with ⟨hh, hi⟩ | ⟨-, ha, d, hd, hi⟩ | ⟨-, ha, -, l, hl, hi⟩
    | ⟨-, ha, -, -, hi⟩ | ⟨-, -, hi⟩ <;> rw [hi]
  · refine ⟨?_, nofun, nofun, nofun, nofun⟩
    rintro _ ⟨⟩
    exact hit_eq_true.1 hh
  · refine ⟨nofun, ?_, nofun, nofun, nofun⟩
    rintro _ _ _ ⟨⟩
    exact eq_offsetPixel_of_diffOperands ha hd
  · refine ⟨nofun, nofun, ?_, nofun, nofun⟩
    rintro _ _ _ ⟨⟩
    exact eq_offsetPixel_of_lumaOperands ha hl
  · refine ⟨nofun, nofun, nofun, ?_, nofun⟩
    rintro _ _ _ ⟨⟩
    rw [← ha]
  · refine ⟨nofun, nofun, nofun, nofun, ?_⟩
    rintro _ _ _ _ ⟨⟩
    rfl

end Sys2Proof.Machine
end

section
/-! PROOF. The decision table of the strategies (42_strategy_select.md R152), and the meanings of the records of strategies
2 to 6 (R145 to R151): each completes with its bytes and the common update, and leaves the rest unchanged (R153). -/

namespace Sys2Proof.Machine

/-! ### The flags and the rows of the table -/

theorem alphaSame_eq_true {prev p : Pixel} : alphaSame prev p = true ↔ p.a = prev.a :=
  decide_eq_true_iff

theorem alphaSame_eq_false {prev p : Pixel} : alphaSame prev p = false ↔ p.a ≠ prev.a :=
  decide_eq_false_iff_not

theorem pixelBody_of_eq_prev {s : State} {p : Pixel} (h : p = s.prev) : pixelBody p s = extendRun s := by
  rw [pixelBody_eq, if_pos h]

theorem pixelBody_of_ne_prev {s : State} {p : Pixel} (h : p ≠ s.prev) :
    pixelBody p s = andThen (flushPending s) fun t => exec (selectRecord t.prev t.cache p) t := by
  rw [pixelBody_eq, if_neg h]

/-- The difference to the secondary base is the difference relative to the green delta (41_wraparound.md R132). -/
theorem sub_lumaBase (o c : Byte) (lg : Int) : c - lumaBase o lg = c - o - BitVec.ofInt 8 lg :=
  sub_add_eq_sub_sub c o (BitVec.ofInt 8 lg)

/-- Settles O28, row by row. -/
theorem priorityTable : Obligations.PriorityTable := by
  intro prev c p
  refine ⟨?_, ?_, fun hh => ?_, fun hh ha hd => ?_, fun hh ha hd hl => ?_, fun hh ha hd hl => ?_, fun hh ha => ?_⟩
  · rintro s rfl he
    exact pixelBody_of_eq_prev (of_decide_eq_true he)
  · rintro s rfl he
    exact pixelBody_of_ne_prev (of_decide_eq_false he)
  · rw [selectRecord_of_hit hh]
    exact ⟨rfl, rfl⟩
  · rw [selectRecord_of_diff hh (alphaSame_eq_true.1 ha) (diffOperands_of_fits hd)]
    exact ⟨rfl, rfl⟩
  · rw [selectRecord_of_luma hh (alphaSame_eq_true.1 ha) (diffOperands_of_not_fits hd) (lumaOperands_of_fits hl),
      sub_lumaBase, sub_lumaBase]
    exact ⟨rfl, rfl⟩
  · rw [selectRecord_of_rgb hh (alphaSame_eq_true.1 ha) (diffOperands_of_not_fits hd) (lumaOperands_of_not_fits hl)]
    exact ⟨rfl, rfl⟩
  · rw [selectRecord_of_rgba hh (alphaSame_eq_false.1 ha)]
    exact ⟨rfl, rfl⟩

/-! ### What a record answers -/

/-- With its pixel readable and room for its bytes, a well-formed record other than RUN appends its encoding and performs
the common update (42_strategy_select.md R153). -/
theorem exec_record_of_room {i : Instr} {s : State} {p : Pixel} (hw : i.wf = true) (hpart : i.part = .records)
    (hrun : ∀ n, i ≠ .run n) (hp : pixRead s.pos s = .ok p) (hroom : s.len + (encode i).length ≤ s.cap) :
    exec i s = .next (commonUpdate p (appendOut (encode i) s)) := by
  rw [exec_record_of_wf hw hpart hrun, emitRecord_of_room hp hroom]

theorem wf_of_exec_eq_next {i : Instr} {s t : State} (h : exec i s = .next t) : i.wf = true := by
  obtain ⟨hdiff, hluma, -, -⟩ := onlyIllFormedOperandsAreRefused
  cases i with
  | diff dr dg db =>
    by_contra hw
    simp [hdiff s dr dg db (Bool.eq_false_iff.2 hw)] at h
  | luma dg drdg dbdg =>
    by_contra hw
    simp [hluma s dg drdg dbdg (Bool.eq_false_iff.2 hw)] at h
  | run n =>
    obtain ⟨h1, h62, -⟩ := execRun_eq_next h
    exact Instr.wf_run.2 ⟨h1, h62⟩
  | index k => rfl
  | rgb r g b => rfl
  | rgba r g b a => rfl
  | header w h => rfl
  | footer => rfl

/-- All that a record other than RUN can do. -/
theorem exec_record_eq_next {i : Instr} {s t : State} {p : Pixel} (hpart : i.part = .records) (hrun : ∀ n, i ≠ .run n)
    (hp : pixRead s.pos s = .ok p) (h : exec i s = .next t) : t = commonUpdate p (appendOut (encode i) s) := by
  rw [exec_record_of_wf (wf_of_exec_eq_next h) hpart hrun] at h
  obtain ⟨q, hq, rfl⟩ := emitRecord_eq_next h
  obtain rfl : p = q := Except.ok.inj (hp.symm.trans hq)
  rfl

/-- Settles O23: a record's next state is its bytes appended and the common update. -/
theorem recordsLeaveTheRestUnchanged : Obligations.RecordsLeaveTheRestUnchanged := by
  intro i s t p hi hp h
  obtain ⟨hpart, hrun⟩ : i.part = .records ∧ ∀ n, i ≠ .run n := by
    rcases hi with ⟨_, rfl⟩ | ⟨_, _, _, rfl⟩ | ⟨_, _, _, rfl⟩ | ⟨_, _, _, rfl⟩ | ⟨_, _, _, _, rfl⟩ <;> exact ⟨rfl, nofun⟩
  obtain rfl := exec_record_eq_next hpart hrun hp h
  refine ⟨rfl, rfl, rfl, rfl, rfl, rfl, rfl, rfl, rfl, rfl, rfl, fun k hk => ?_, fun a ha => ?_, fun k hk => ?_⟩
  · exact cacheRead_write_other s.cache p hk
  · exact Memory.read_writeBytes_outside (encode i) s.out ha
  · exact Memory.read_writeBytes_inside (encode i) s.out s.len k hk

/-! ### The records one by one -/

/-- On a hit the common update writes what the slot holds already (42_strategy_select.md R145). -/
theorem cacheUpdate_of_hit {c : Cache} {p : Pixel} (h : hit c p = true) : cacheUpdate c p = c := by
  refine cache_ext fun k => ?_
  rw [cacheRead_update]
  split
  · next hk => rw [hk, hit_eq_true.1 h]
  · rfl

/-- Settles O14: INDEX is a record, and on a hit its common update changes nothing in the cache. -/
theorem indexEmitsItsHash : Obligations.IndexEmitsItsHash :=
  ⟨fun _ _ _ hp hroom => exec_record_of_room rfl rfl nofun hp hroom, fun _ _ => cacheUpdate_of_hit,
    fun _ _ _ => selectRecord_of_hit, fun _ _ => pixelBody_of_eq_prev, selectRecord_of_hit (by decide), by decide⟩

/-- Settles O15: DIFF is a record where its deltas are in range, and it is selected where they fit. -/
theorem diffEmitsBiasedDeltas : Obligations.DiffEmitsBiasedDeltas :=
  ⟨fun _ _ _ _ _ hr hg hb hp hroom => exec_record_of_room (Instr.wf_diff.2 ⟨hr, hg, hb⟩) rfl nofun hp hroom,
    fun _ _ _ _ _ _ hh ha hr hg hb => selectRecord_of_diff hh ha (diffOperands_eq_some.2 ⟨hr, hg, hb⟩),
    by decide, by decide, by decide⟩

/-- Settles O16: LUMA is a record where its deltas are in range, and it is selected where they fit and DIFF does not. -/
theorem lumaEmitsBiasedDeltas : Obligations.LumaEmitsBiasedDeltas :=
  ⟨fun _ _ _ _ _ hg hr hb hp hroom => exec_record_of_room (Instr.wf_luma.2 ⟨hg, hr, hb⟩) rfl nofun hp hroom,
    fun _ _ _ _ _ _ hh ha hd hg hr hb =>
      selectRecord_of_luma hh ha (diffOperands_of_not_fits hd) (lumaOperands_eq_some.2 ⟨hg, hr, hb⟩),
    by decide⟩

/-- Settles O17: RGB is a record, and it is selected where neither DIFF nor LUMA fits. -/
theorem rgbEmitsRawChannels : Obligations.RgbEmitsRawChannels :=
  ⟨fun _ _ _ _ _ hp hroom => exec_record_of_room rfl rfl nofun hp hroom,
    fun _ _ _ hh ha hd hl => selectRecord_of_rgb hh ha (diffOperands_of_not_fits hd) (lumaOperands_of_not_fits hl),
    by decide⟩

/-- With alpha changed the only alternative to RGBA is a hit (42_strategy_select.md R151). -/
theorem selectRecord_of_alpha_changed {prev : Pixel} (c : Cache) {p : Pixel} (ha : p.a ≠ prev.a) :
    selectRecord prev c p = if hit c p then .index (pixelHash p) else .rgba p.r p.g p.b p.a := by
  split
  · next hh => exact selectRecord_of_hit hh
  · next hh => exact selectRecord_of_rgba (Bool.eq_false_iff.2 hh) ha

/-- Settles O18: RGBA is a record, and with alpha changed only a hit is selected before it; in the spec's example slot 53
holds another pixel, so there is none. -/
theorem rgbaEmitsRawChannels : Obligations.RgbaEmitsRawChannels := by
  refine ⟨fun _ _ _ _ _ _ hp hroom => exec_record_of_room rfl rfl nofun hp hroom,
    fun _ c _ ha => selectRecord_of_alpha_changed c ha, fun c hslot => ?_⟩
  have hhash : pixelHash ⟨0, 0, 0, 255⟩ = 53 := by decide
  have hmiss : hit c ⟨0, 0, 0, 255⟩ = false := by
    refine Bool.eq_false_iff.2 fun hh => ?_
    rw [hit_eq_true, hhash, hslot] at hh
    exact absurd hh (by decide)
  rw [selectRecord_of_rgba hmiss (by decide)]
  rfl

end Sys2Proof.Machine
end

section
/-! PROOF. The PIXEL step, branch by branch (42_strategy_select.md R140 to R143, R154; 43_run.md R171): what it is, and what
it answers where there is room. -/

namespace Sys2Proof.Machine

/-! ### What the PIXEL step is -/

theorem step_of_pixels {s : State} (hh : s.host = []) (hph : s.phase = .pixels) (hpos : s.pos < s.pixelCount) :
    step s = pixelStep s :=
  (step_of_no_host hh).trans (encoderStep_of_pixels hph hpos)

/-- Two continuations that agree on the state the first part leaves are one. -/
theorem andThen_congr_next {o : Result} {f g : State → Result} (h : ∀ u, o = .next u → f u = g u) :
    andThen o f = andThen o g := by
  cases o with
  | next u => exact h u rfl
  | fault r => rfl
  | refused r => rfl

/-- Below the cap the run is extended and nothing is emitted (42_strategy_select.md R142). -/
theorem pixelStep_of_run_below_cap {s : State} (hp : pixRead s.pos s = .ok s.prev) (hr : s.run.toNat ≠ 61) :
    pixelStep s = .next { s with run := s.run + 1, pos := s.pos + 1 } := by
  rw [pixelStep, withPixel_of_ok hp, pixelBody_eq, if_pos rfl, extendRun_below_cap hr, andThen_next]
  rfl

/-- At the cap the extended run is flushed in the same step (43_run.md R171). -/
theorem pixelStep_of_run_at_cap {s : State} (hp : pixRead s.pos s = .ok s.prev) (hr : s.run.toNat = 61) :
    pixelStep s = andThen (exec (.run 62) (countRun s)) advancePos := by
  rw [pixelStep, withPixel_of_ok hp, pixelBody_eq, if_pos rfl, extendRun_at_cap hr]

/-- A pixel that differs from `prev` is the flush, then its record; the flush writes neither `prev` nor the cache, so the
record is the one that the step began with (42_strategy_select.md R143). -/
theorem pixelStep_of_ne_prev {s : State} {p : Pixel} (hp : pixRead s.pos s = .ok p) (hne : p ≠ s.prev) :
    pixelStep s = andThen (flushPending s) fun u => andThen (exec (selectRecord s.prev s.cache p) u) advancePos := by
  rw [pixelStep, withPixel_of_ok hp, pixelBody_eq, if_neg hne, andThen_assoc]
  refine andThen_congr_next fun u hu => ?_
  obtain ⟨-, rfl⟩ := flushPending_eq_next hu
  rfl

/-! ### What it answers where there is room -/

theorem pixelStep_at_cap_of_room {s : State} (hp : pixRead s.pos s = .ok s.prev) (hr : s.run.toNat = 61)
    (hroom : s.len + 1 ≤ s.cap) :
    pixelStep s = .next { appendOut [runByte 62] s with run := 0, pos := s.pos + 1 } := by
  rw [pixelStep_of_run_at_cap hp hr, execRun_of_room (s := countRun s) (by decide) (by decide) hroom]
  rfl

theorem pixelStep_record_of_room {s : State} {p : Pixel} (hp : pixRead s.pos s = .ok p) (hne : p ≠ s.prev)
    (hr : s.run.toNat ≤ 62)
    (hroom : s.len + (pendingByte s ++ encode (selectRecord s.prev s.cache p)).length ≤ s.cap) :
    pixelStep s = .next { commonUpdate p (appendOut (pendingByte s ++ encode (selectRecord s.prev s.cache p)) s) with
      run := 0, pos := s.pos + 1 } := by
  rw [List.length_append] at hroom
  have hrecord := emitRecord_of_room (s := { appendOut (pendingByte s) s with run := 0 })
    (bytes := encode (selectRecord s.prev s.cache p)) hp (by simp only [appendOut_len, appendOut_cap]; omega)
  rw [pixelStep_of_ne_prev hp hne, flushPending_of_room hr (by omega), andThen_next, (exec_selectRecord _ _ _ _).1,
    hrecord, andThen_next, ← appendOut_append]
  rfl

/-- The pending run's byte and the record together are at most six bytes (42_strategy_select.md R154). -/
theorem pendingByte_append_record_length_le (s : State) (p : Pixel) :
    (pendingByte s ++ encode (selectRecord s.prev s.cache p)).length ≤ 6 := by
  obtain ⟨-, -, h5⟩ := exec_selectRecord s.prev s.cache p s
  have howed := owed_le s
  rw [owed_eq] at howed
  rw [List.length_append]
  omega

/-- Settles O34: the flush and the record append in that order. -/
theorem flushPrecedesTheRecord : Obligations.FlushPrecedesTheRecord := by
  intro s p hh hph hpos hp hne hr hroom
  have hlen := pendingByte_append_record_length_le s p
  rw [step_of_pixels hh hph hpos]
  exact pixelStep_record_of_room hp hne hr (by omega)

theorem encode_length (i : Instr) : (encode i).length = i.size := by
  cases i <;> rfl

theorem pendingByte_length (s : State) : (pendingByte s).length = if s.run = 0 then 0 else 1 := by
  unfold pendingByte
  split <;> rfl

/-- A PIXEL step emits nothing or the byte at the cap on a run pixel, and otherwise the pending run's byte and the record
(42_strategy_select.md R154). -/
theorem pixelStep_len {s t : State} {p : Pixel} (hp : pixRead s.pos s = .ok p) (h : pixelStep s = .next t) :
    t.len = s.len + if p = s.prev then (if s.run.toNat = 61 then 1 else 0)
      else (if s.run = 0 then 0 else 1) + (selectRecord s.prev s.cache p).size := by
  obtain ⟨q, hq, hc⟩ := pixelStep_eq_next h
  obtain rfl : p = q := Except.ok.inj (hp.symm.trans hq)
  obtain ⟨he, hr, rfl⟩ | ⟨he, hr, rfl⟩ | ⟨hne, -, rfl⟩ := hc
  · rw [if_pos he, if_neg hr]
    rfl
  · rw [if_pos he, if_pos hr]
    rfl
  · rw [if_neg hne, ← pendingByte_length, ← encode_length, ← List.length_append]
    rfl

/-- Settles O35: the length by branches, and the cost of a pixel with what is owed. -/
theorem pixelStepEmitsAtMostSixBytes : Obligations.PixelStepEmitsAtMostSixBytes := by
  intro s t p hh hph hpos hp h
  rw [step_of_pixels hh hph hpos] at h
  obtain ⟨-, hcost⟩ := pixelStep_cost h
  have howed := owed_le s
  exact ⟨pixelStep_len hp h, by omega, hcost⟩

/-- Settles O33: the two branches of the run extension, at the cap with the byte of RUN 62. -/
theorem runPixelExtendsOrFlushesAtTheCap : Obligations.RunPixelExtendsOrFlushesAtTheCap := by
  intro s hh hph hpos hp
  rw [step_of_pixels hh hph hpos]
  refine ⟨fun hr => ⟨_, pixelStep_of_run_below_cap hp (by omega), ?_, rfl⟩, fun hr hroom => ?_⟩
  · have hinc : (s.run + 1).toNat = (s.run.toNat + 1) % 64 := BitVec.toNat_add s.run 1
    show (s.run + 1).toNat = s.run.toNat + 1
    omega
  · exact pixelStep_at_cap_of_room hp hr hroom

/-! ### The step as the issued instruction -/

theorem encoderStep_of_flush_no_run {s : State} (hph : s.phase = .flush) (hr : s.run = 0) :
    encoderStep s = .next { s with phase := .footer } := by
  simp only [encoderStep, hph, flushStep, flushPending_of_no_run hr, andThen_next]

theorem encoderStep_of_pixels_end {s : State} (hph : s.phase = .pixels) (hpos : s.pos = s.pixelCount) :
    encoderStep s = .next { s with phase := .flush } := by
  simp only [encoderStep, hph, pixelsPhase, hpos, Nat.lt_irrefl, if_false, if_true]

/-- Settles O31, phase by phase, and in PIXELS by the branches of the PIXEL step. -/
theorem stepRunsTheIssuedInstruction : Obligations.StepRunsTheIssuedInstruction := by
  intro s hh
  have hstep := step_of_no_host hh
  refine ⟨fun hph => ?_, fun hph => ?_, fun hph hr => ?_, fun hph hr => ?_, fun hph hpos => ?_,
    fun p hph hpos hp => ?_⟩
  · rw [hstep]
    simp only [encoderStep, hph]
  · rw [hstep]
    simp only [encoderStep, hph]
  · exact hstep.trans (encoderStep_of_flush hph hr)
  · exact hstep.trans (encoderStep_of_flush_no_run hph hr)
  · exact hstep.trans (encoderStep_of_pixels_end hph hpos)
  · rw [step_of_pixels hh hph hpos]
    refine ⟨fun hne hr => pixelStep_of_record hp hne hr, fun hne hr => ?_, ?_, ?_⟩
    · rw [pixelStep_of_ne_prev hp hne, flushPending_of_run hr]
      rfl
    · rintro rfl hr
      exact pixelStep_of_run_below_cap hp fun h => hr (BitVec.eq_of_toNat_eq h)
    · rintro rfl hr
      have hcount : countRun s = { s with run := 62 } := by
        rw [countRun, hr]
        rfl
      rw [pixelStep_of_run_at_cap hp (congrArg BitVec.toNat hr), hcount]
      rfl

end Sys2Proof.Machine
end

section
/-! PROOF. RUN (43_run.md R172): its one byte at `len`, the counter cleared, and nothing else written. -/

namespace Sys2Proof.Machine

/-- Every RUN byte lies in the range of its tag, from `0xC0` up (30_encoding.md R88). -/
theorem le_toNat_runByte {n : Nat} (h : (Instr.run n).wf = true) : 0xC0 ≤ (runByte n).toNat := by
  rw [toNat_runByte h]
  exact Nat.le_add_right 0xC0 (n - 1)

/-- Settles O19: RUN with room appends its byte, a flush with no run pending is no step, and `0xBF` lies below every RUN
byte. -/
theorem runEmitsAndClearsTheCounter : Obligations.RunEmitsAndClearsTheCounter := by
  refine ⟨fun _ _ h1 h62 hroom => execRun_of_room h1 h62 hroom, fun _ => flushPending_of_no_run,
    fun n h1 h62 hbyte => ?_, by decide⟩
  have hge := le_toNat_runByte (Instr.wf_run.2 ⟨h1, h62⟩)
  rw [hbyte] at hge
  exact absurd hge (by decide)

/-- Settles O24: the next state of RUN is its byte appended and the counter cleared, so only OUT needs an argument. -/
theorem runLeavesTheRestUnchanged : Obligations.RunLeavesTheRestUnchanged := by
  intro n s t h
  obtain ⟨-, -, rfl⟩ := execRun_eq_next h
  refine ⟨rfl, rfl, rfl, rfl, rfl, rfl, rfl, rfl, rfl, rfl, rfl, rfl, fun a ha => ?_, ?_⟩
  · have hout : a < s.len ∨ s.len + [runByte n].length ≤ a := Nat.lt_or_gt_of_ne ha
    exact Memory.read_writeBytes_outside [runByte n] s.out hout
  · exact Memory.read_writeBytes_inside [runByte n] s.out s.len 0 Nat.one_pos

end Sys2Proof.Machine
end

section
/-! PROOF. The two frame writers and the FLUSH step (44_framing.md R186, R193, R195, R196): each appends its bytes at `len`
and changes the phase. -/

namespace Sys2Proof.Machine

/-! ### HEADER and FOOTER -/

theorem exec_header_of_room {w h : Dim} {s : State} (hroom : s.len + 14 ≤ s.cap) :
    exec (.header w h) s = .next { appendOut (encode (.header w h)) s with phase := .pixels } := by
  rw [exec_header_eq, emitBytes_of_room _ _ hroom, andThen_next]

theorem exec_footer_of_room {s : State} (hroom : s.len + 8 ≤ s.cap) :
    exec .footer s = .next { appendOut (encode .footer) s with phase := .done } := by
  rw [exec_footer_eq, emitBytes_of_room _ _ hroom, andThen_next]

/-- Settles O20: the encoding of HEADER is the spec's 14 bytes. -/
theorem headerEmitsFourteenBytes : Obligations.HeaderEmitsFourteenBytes :=
  ⟨fun _ _ _ => exec_header_of_room, by decide⟩

/-- Settles O21: the encoding of FOOTER is the spec's eight bytes. -/
theorem footerEmitsEightBytes : Obligations.FooterEmitsEightBytes :=
  fun _ => exec_footer_of_room

/-- Bytes emitted, then the phase set: all that such a writer can do. -/
theorem emitBytes_setPhase_eq_next {bs : List Byte} {ph : Phase} {s t : State}
    (h : andThen (emitBytes bs s) (fun u => .next { u with phase := ph }) = .next t) :
    t = { appendOut bs s with phase := ph } := by
  obtain ⟨u, hu, ht⟩ := andThen_eq_next.1 h
  obtain rfl := emitBytes_eq_next hu
  exact (Host.Outcome.next.inj ht).symm

theorem exec_frame_eq_next {i : Instr} {s t : State} (hi : (∃ w h, i = .header w h) ∨ i = .footer)
    (h : exec i s = .next t) : ∃ ph, t = { appendOut (encode i) s with phase := ph } := by
  rcases hi with ⟨w, h', rfl⟩ | rfl
  · rw [exec_header_eq] at h
    exact ⟨_, emitBytes_setPhase_eq_next h⟩
  · rw [exec_footer_eq] at h
    exact ⟨_, emitBytes_setPhase_eq_next h⟩

/-- Settles O25: a frame writer's next state is its bytes appended and the phase, so only OUT needs an argument. -/
theorem frameWritersLeaveTheRestUnchanged : Obligations.FrameWritersLeaveTheRestUnchanged := by
  intro i s t hi h
  obtain ⟨ph, rfl⟩ := exec_frame_eq_next hi h
  refine ⟨rfl, rfl, rfl, rfl, rfl, rfl, rfl, rfl, rfl, rfl, rfl, rfl, fun a ha => ?_, fun k hk => ?_⟩
  · exact Memory.read_writeBytes_outside (encode i) s.out ha
  · exact Memory.read_writeBytes_inside (encode i) s.out s.len k hk

/-! ### WriteBE32 (44_framing.md R186) -/

/-- Byte `k` of a dimension is the same slice in both spellings. -/
theorem beBytes_four (v : Dim) : beBytes 4 v.toNat = be32Bytes v := rfl

theorem writeBE32_of_room {v : Dim} {s : State} (hroom : s.len + 4 ≤ s.cap) :
    writeBE32 v s = .next (appendOut (be32Bytes v) s) :=
  emitBytes_of_room (be32Bytes v) s hroom

theorem memWrite_of_room {addr n v : Nat} {s : State} (hroom : addr + n ≤ s.cap) :
    memWrite addr n v s = .next { s with out := Memory.writeBytes s.out addr (beBytes n v) } :=
  if_pos hroom

/-- Settles O22: the four `Emit`s and the one write leave the same bytes. -/
theorem writeBE32IsOneBigEndianWrite : Obligations.WriteBE32IsOneBigEndianWrite := by
  refine ⟨fun s v hroom => ⟨?_, writeBE32_of_room hroom⟩, by decide⟩
  rw [writeBE32_of_room hroom, memWrite_of_room hroom, beBytes_four, andThen_next]
  rfl

/-! ### FLUSH (44_framing.md R195) -/

/-- With room for the pending run's byte, if there is one, the FLUSH step completes. -/
theorem encoderStep_of_flush_of_room {s : State} (hph : s.phase = .flush) (hr : s.run.toNat ≤ 62)
    (hroom : s.len + (pendingByte s).length ≤ s.cap) :
    encoderStep s = .next { appendOut (pendingByte s) s with run := 0, phase := .footer } := by
  simp only [encoderStep, hph, flushStep, flushPending_of_room hr hroom, andThen_next]

theorem pendingByte_of_run {s : State} (h : s.run ≠ 0) : pendingByte s = [runByte s.run.toNat] := if_neg h

/-- Settles O38: the step with no run pending, and with the pending run's byte. -/
theorem flushStepEmitsThePendingRun : Obligations.FlushStepEmitsThePendingRun := by
  refine ⟨fun s hh hph hr hroom => ?_, by decide⟩
  rw [step_of_no_host hh]
  refine ⟨encoderStep_of_flush_no_run hph, fun hrun => ?_⟩
  have hbyte := pendingByte_of_run hrun
  rw [encoderStep_of_flush_of_room hph (by omega) (by rw [hbyte]; exact hroom), hbyte]
  rfl

end Sys2Proof.Machine
end

section
/-! PROOF. The two ends of an encode: START where the block is not busy (44_framing.md R192), and the phases in which no step
is enabled, with what the host sees there (R197, R203; 20_memory.md R55). -/

namespace Sys2Proof.Machine

/-! ### START -/

theorem step_of_start {s : State} {i : StartInputs} {rest : List HostMove} (hh : s.host = .start i :: rest)
    (hb : s.phase.busy = false) : step s = .next (startEncode i { s with host := rest }) := by
  simp [step, machineStep, hh, hb]

theorem startEncode_of_check {i : StartInputs} (hc : startCheck i = none) (s : State) :
    startEncode i s = loadEncode i s := by
  rw [startEncode, hc]

/-- Settles O43: both checks pass, and START loads its values. -/
theorem startLoadsTheInitialState : Obligations.StartLoadsTheInitialState := by
  intro s i rest hph hh hnpix hcap
  have hb : s.phase.busy = false := by
    rcases hph with h | h | h <;> rw [h] <;> rfl
  rw [step_of_start hh hb, startEncode_of_check (startCheck_eq_none.2 ⟨hnpix, hcap⟩)]
  rfl

/-! ### The phases that are not busy -/

theorem encoderStep_of_not_busy {s : State} (h : s.phase.busy = false) : encoderStep s = .fault .noStepEnabled := by
  cases hph : s.phase with
  | idle | done | failed => simp only [encoderStep, hph]
  | header | pixels | flush | footer =>
    rw [hph] at h
    cases h

theorem readBytes_length (m : Memory) (a n : Nat) : (readBytes m a n).length = n := by
  induction n generalizing a with
  | zero => rfl
  | succ n ih => rw [readBytes, List.length_cons, ih]

theorem readBytes_getElem? (m : Memory) (a : Nat) {n k : Nat} (h : k < n) :
    (readBytes m a n)[k]? = some (Memory.read m (a + k)) := by
  induction n generalizing a k with
  | zero => omega
  | succ n ih =>
    cases k with
    | zero => rfl
    | succ k => rw [readBytes, List.getElem?_cons_succ, ih (a + 1) (by omega), Nat.add_right_comm, Nat.add_assoc]

/-- Settles O48, phase by phase. -/
theorem terminalPhasesAndWhatTheHostSees : Obligations.TerminalPhasesAndWhatTheHostSees := by
  intro s
  refine ⟨fun hb hh => ?_, fun hph => ?_, fun hph => ?_, fun hb => ?_⟩
  · rw [step_of_no_host hh, encoderStep_of_not_busy hb]
  · refine ⟨by rw [hostLen, hph], by rw [hostStatus, hph], readBytes s.out 0 s.len, by rw [hostResult, hph],
      readBytes_length _ _ _, fun k hk => ?_⟩
    rw [readBytes_getElem? _ _ hk, Nat.zero_add]
  · exact ⟨by rw [hostLen, hph], by rw [hostStatus, hph], by rw [hostResult, hph]⟩
  · cases hph : s.phase with
    | idle | done | failed =>
      rw [hph] at hb
      cases hb
    | header | pixels | flush | footer =>
      exact ⟨by rw [hostLen, hph], by rw [hostStatus, hph], by rw [hostResult, hph], hph⟩

end Sys2Proof.Machine
end

section
/-! PROOF. Every step keeps the encode on the track of the functional form (44_framing.md R200): the registers are those of
the pixels processed so far, and OUT holds their bytes. -/

namespace Sys2Proof.Machine

/-! ### OUT below `len` -/

/-- OUT below `len` is exactly the given bytes. -/
def State.OutIs (s : State) (bs : List Byte) : Prop :=
  s.len = bs.length ∧ ∀ k, k < s.len → Memory.read s.out k = bs[k]?

theorem State.OutIs.append {s : State} {cs : List Byte} (h : s.OutIs cs) (bs : List Byte) :
    (appendOut bs s).OutIs (cs ++ bs) := by
  obtain ⟨hlen, hread⟩ := h
  exact ⟨by rw [appendOut_len, hlen, List.length_append], read_append bs hlen hread⟩

/-! ### The track, phase by phase -/

theorem onTrack_iff {s : State} (hph : s.phase.busy = true ∨ s.phase = .done) :
    s.OnTrack ↔ s.codec = { codecAfter (s.pix.take s.pos) with run := s.runSoFar } ∧ s.OutIs s.bytesSoFar := by
  simp only [State.OnTrack, hph, true_imp_iff, State.codec, CodecState.mk.injEq, and_assoc]
  rfl

theorem onTrack_of_not_busy {s : State} (hb : s.phase.busy = false) (hd : s.phase ≠ .done) : s.OnTrack := by
  rintro (h | h)
  · rw [hb] at h
    cases h
  · exact absurd h hd

theorem onTrack_header {s : State} (hph : s.phase = .header) :
    s.OnTrack ↔ s.codec = codecAfter (s.pix.take s.pos) ∧ s.OutIs [] := by
  rw [onTrack_iff (.inl (by rw [hph]; rfl)), State.runSoFar, State.bytesSoFar, hph]

theorem onTrack_pixels {s : State} (hph : s.phase = .pixels) :
    s.OnTrack ↔ s.codec = codecAfter (s.pix.take s.pos)
      ∧ s.OutIs (encode (.header s.w s.h) ++ emittedBytes CodecState.init (s.pix.take s.pos)) := by
  rw [onTrack_iff (.inl (by rw [hph]; rfl)), State.runSoFar, State.bytesSoFar, hph]

theorem onTrack_flush {s : State} (hph : s.phase = .flush) :
    s.OnTrack ↔ s.codec = codecAfter (s.pix.take s.pos)
      ∧ s.OutIs (encode (.header s.w s.h) ++ emittedBytes CodecState.init (s.pix.take s.pos)) := by
  rw [onTrack_iff (.inl (by rw [hph]; rfl)), State.runSoFar, State.bytesSoFar, hph]

theorem onTrack_footer {s : State} (hph : s.phase = .footer) :
    s.OnTrack ↔ s.codec = (codecAfter (s.pix.take s.pos)).flushed
      ∧ s.OutIs (encode (.header s.w s.h) ++ records s.pix) := by
  rw [onTrack_iff (.inl (by rw [hph]; rfl)), State.runSoFar, State.bytesSoFar, hph, CodecState.flushed]

theorem onTrack_done {s : State} (hph : s.phase = .done) :
    s.OnTrack ↔ s.codec = (codecAfter (s.pix.take s.pos)).flushed ∧ s.OutIs (encodeImage s.w s.h s.pix) := by
  rw [onTrack_iff (.inr hph), State.runSoFar, State.bytesSoFar, hph, CodecState.flushed]

/-! ### The steps of the encoder -/

/-- At the end of the image the pixels processed so far are all of them. -/
theorem State.InputsChecked.take_pos {s : State} (h : s.InputsChecked) (hpos : s.pos = s.pixelCount) :
    s.pix.take s.pos = s.pix := by
  rw [hpos, ← h.npix_eq, ← h.pix_length, List.take_length]

/-- The record stream is the bytes of all the pixels, then the final flush. -/
theorem records_eq (ps : List Pixel) :
    records ps = emittedBytes CodecState.init ps ++ pendingRun (codecAfter ps).run :=
  recordsFrom_eq CodecState.init ps

theorem pixelStep_onTrack {s t : State} (hr : s.run.toNat ≤ 61) (hph : s.phase = .pixels) (hs : s.OnTrack)
    (h : pixelStep s = .next t) : t.OnTrack := by
  obtain ⟨hcodec, hout⟩ := (onTrack_pixels hph).1 hs
  obtain ⟨p, hp, ht, hnext⟩ := pixelStep_codec hr h
  have htake : s.pix.take (s.pos + 1) = s.pix.take s.pos ++ [p] := by
    rw [List.take_add_one, (pixRead_ok.1 hp).2, Option.toList_some]
  rw [hcodec, ← codecAfter_append, ← htake] at hnext
  have hbytes := hout.append (codecBytes s.codec p)
  rw [List.append_assoc, hcodec, codecAfter, ← emittedBytes_append, ← htake] at hbytes
  rw [ht, hcodec]
  refine (onTrack_pixels ?_).2 ⟨hnext, hbytes⟩
  exact hph

/-- The encoder's step, phase by phase: the header, the bytes of one pixel more, nothing, the pending run's byte, the
footer. -/
theorem encoderStep_onTrack {s t : State} (hr : s.run.toNat ≤ 61) (hi : s.PhaseInv) (hs : s.OnTrack)
    (h : encoderStep s = .next t) : t.OnTrack := by
  rcases encoderStep_eq_next h with ⟨hph, rfl⟩ | ⟨hph, _, hp⟩ | ⟨hph, _, rfl⟩ | ⟨hph, _, rfl⟩ | ⟨hph, rfl⟩
  · obtain ⟨-, -, hpos, -⟩ := (phaseInv_header hph).1 hi
    obtain ⟨hcodec, hout⟩ := (onTrack_header hph).1 hs
    have hnone : emittedBytes CodecState.init (s.pix.take s.pos) = [] := by rw [hpos]; rfl
    refine (onTrack_pixels rfl).2 ⟨hcodec, ?_⟩
    simp only [appendOut_w, appendOut_h, appendOut_pix, appendOut_pos, hnone, List.append_nil]
    exact hout.append _
  · exact pixelStep_onTrack hr hph hs hp
  · exact (onTrack_flush rfl).2 ((onTrack_pixels hph).1 hs)
  · obtain ⟨hin, -, hpos, -⟩ := (phaseInv_flush hph).1 hi
    obtain ⟨hcodec, hout⟩ := (onTrack_flush hph).1 hs
    have hrun : (codecAfter (s.pix.take s.pos)).run = s.run.toNat := congrArg CodecState.run hcodec.symm
    refine (onTrack_footer rfl).2 ⟨congrArg CodecState.flushed hcodec, ?_⟩
    have hrecords : emittedBytes CodecState.init (s.pix.take s.pos) ++ pendingByte s = records s.pix := by
      rw [← pendingRun_eq, ← hrun, ← records_eq, hin.take_pos hpos]
    have hbytes := hout.append (pendingByte s)
    rw [List.append_assoc, hrecords] at hbytes
    exact hbytes
  · obtain ⟨hcodec, hout⟩ := (onTrack_footer hph).1 hs
    exact (onTrack_done rfl).2 ⟨hcodec, hout.append (encode .footer)⟩

/-- Settles O58: the encoder's step by `encoderStep_onTrack`; of the host's moves only a START that passes its checks begins an
encode, and a reset or an error ends one. -/
theorem everyStepKeepsTheEncodeOnTrack : Obligations.EveryStepKeepsTheEncodeOnTrack := by
  intro s t hi hs h
  rcases step_eq_next h with ⟨rest, hh, rfl⟩ | ⟨i, rest, hh, _, rfl⟩ | ⟨rest, hh, _, rfl⟩ | ⟨rest, hh, he⟩ | ⟨_, he⟩
  · exact onTrack_of_not_busy rfl nofun
  · unfold startEncode
    split
    · exact onTrack_of_not_busy rfl nofun
    · exact loadEncode_onTrack i _
  · exact hs
  · exact encoderStep_onTrack (s := { s with host := rest }) hi.run_le (hi.pop_host hh).phase_inv hs he
  · exact encoderStep_onTrack hi.run_le hi.phase_inv hs he

end Sys2Proof.Machine
end

section
/-! PROOF. The length of the container (44_framing.md R198, R202): a pixel costs at most five bytes once the pending run's byte
is counted with it (42_strategy_select.md R154). -/

namespace Sys2Proof.Machine

theorem pendingRun_length_le (n : Nat) : (pendingRun n).length ≤ 1 := by
  unfold pendingRun
  split
  · exact Nat.le_refl 1
  · exact Nat.zero_le 1

theorem encode_selectRecord_length_le (prev : Pixel) (c : Cache) (p : Pixel) :
    (encode (selectRecord prev c p)).length ≤ 5 :=
  (exec_selectRecord prev c p State.reset).2.2

theorem codecBytes_cost (c : CodecState) (p : Pixel) :
    (codecBytes c p).length + (pendingRun (codecNext c p).run).length ≤ 5 + (pendingRun c.run).length := by
  unfold codecBytes codecNext
  split
  · split
    · exact Nat.le_add_right_of_le (Nat.le_add_left 1 4)
    · have hpending := pendingRun_length_le (c.run + 1)
      simp only [List.length_nil]
      omega
  · have hrecord := encode_selectRecord_length_le c.prev c.cache p
    rw [List.length_append]
    show _ + (pendingRun 0).length ≤ _
    have hnone : (pendingRun 0).length = 0 := rfl
    omega

theorem recordsFrom_length_le (c : CodecState) (ps : List Pixel) :
    (recordsFrom c ps).length ≤ 5 * ps.length + (pendingRun c.run).length := by
  induction ps generalizing c with
  | nil => exact Nat.le_add_left _ _
  | cons p ps ih =>
    have hcost := codecBytes_cost c p
    have hrest := ih (codecNext c p)
    rw [recordsFrom, List.length_append, List.length_cons]
    omega

/-- Settles O54: no run is pending at encode start. -/
theorem containerLengthBound : Obligations.ContainerLengthBound := by
  intro w h px
  have hlen : (encodeImage w h px).length = 14 + (records px).length + 8 := by
    simp only [encodeImage, List.length_append, encode_length, Instr.size]
  have hrecords : (records px).length ≤ 5 * px.length := recordsFrom_length_le CodecState.init px
  exact ⟨hlen, by omega, by omega⟩

end Sys2Proof.Machine
end

section
/-! PROOF. Whole encodes (44_framing.md R192 to R200): from START to DONE in `W*H + 4` steps, with the container of the
functional form in OUT. -/

namespace Sys2Proof.Machine

/-! ### Runs of several steps -/

theorem run_succ_eq_next {k : Nat} {s t : State} :
    Host.Core.run core (k + 1) s = .next t ↔ ∃ u, step s = .next u ∧ Host.Core.run core k u = .next t := by
  simp only [Host.Core.run]
  rw [show core.step s = step s from rfl]
  cases step s <;> simp

/-- What every step keeps, several steps keep. -/
theorem run_preserves {P : State → Prop} (hstep : ∀ s t, P s → step s = .next t → P t) {k : Nat} {s t : State}
    (hs : P s) (h : Host.Core.run core k s = .next t) : P t := by
  induction k generalizing s with
  | zero => exact Host.Outcome.next.inj h ▸ hs
  | succ k ih =>
    obtain ⟨u, hu, ht⟩ := run_succ_eq_next.1 h
    exact ih (hstep s u hs hu) ht

/-! ### The steps outside the pixels -/

theorem step_of_header {s : State} (hh : s.host = []) (hph : s.phase = .header) (hroom : s.len + 14 ≤ s.cap) :
    step s = .next { appendOut (encode (.header s.w s.h)) s with phase := .pixels } := by
  simp only [step_of_no_host hh, encoderStep, hph, exec_header_of_room hroom]

theorem step_of_footer {s : State} (hh : s.host = []) (hph : s.phase = .footer) (hroom : s.len + 8 ≤ s.cap) :
    step s = .next { appendOut (encode .footer) s with phase := .done } := by
  simp only [step_of_no_host hh, encoderStep, hph, exec_footer_of_room hroom]

/-- After the last pixel three steps are left: the transition to FLUSH, the pending run's byte, the footer. -/
theorem run_after_last_pixel {s : State} (hh : s.host = []) (hph : s.phase = .pixels) (hpos : s.pos = s.pixelCount)
    (hr : s.run.toNat ≤ 61) (hroom : s.len + (pendingByte s).length + 8 ≤ s.cap) :
    Host.Core.run core 3 s = .next
      { appendOut (encode .footer) (appendOut (pendingByte s) s) with run := 0, phase := .done } := by
  have hpixels : step s = .next { s with phase := .flush } :=
    (step_of_no_host hh).trans (encoderStep_of_pixels_end hph hpos)
  have hflush : step { s with phase := .flush } =
      .next { appendOut (pendingByte s) s with run := 0, phase := .footer } :=
    (step_of_no_host (s := { s with phase := .flush }) hh).trans
      (encoderStep_of_flush_of_room rfl (Nat.le_succ_of_le hr) (Nat.le_of_add_right_le hroom))
  have hfooter := step_of_footer (s := { appendOut (pendingByte s) s with run := 0, phase := .footer }) hh rfl hroom
  exact run_succ_eq_next.2 ⟨_, hpixels, run_succ_eq_next.2 ⟨_, hflush, run_succ_eq_next.2 ⟨_, hfooter, rfl⟩⟩⟩

theorem pendingByte_of_no_run {s : State} (h : s.run = 0) : pendingByte s = [] := if_pos h

/-- With no run pending the footer is all that is left to write. -/
theorem run_after_last_pixel_of_no_run {s : State} (hh : s.host = []) (hph : s.phase = .pixels)
    (hpos : s.pos = s.pixelCount) (hr : s.run = 0) (hroom : s.len + 8 ≤ s.cap) :
    Host.Core.run core 3 s = .next { appendOut (encode .footer) s with run := 0, phase := .done } := by
  have hnone := pendingByte_of_no_run hr
  have hlast := run_after_last_pixel hh hph hpos (by rw [hr]; decide) (by rw [hnone]; exact hroom)
  rwa [hnone, appendOut_nil] at hlast

/-! ### What every step of one encode keeps -/

/-- In the encode of `i`, with no host move to come: the invariant's parts that a step looks at, the track, the latched inputs,
and OUT from `len` on as in `m`, what it held at START. -/
structure State.EncodeOf (i : StartInputs) (m : Memory) (s : State) : Prop where
  host_eq : s.host = []
  run_le : s.run.toNat ≤ 61
  phase_inv : s.PhaseInv
  on_track : s.OnTrack
  w_eq : s.w = i.w
  h_eq : s.h = i.h
  pix_eq : s.pix = i.pix
  out_beyond : ∀ a, s.len ≤ a → Memory.read s.out a = Memory.read m a

theorem loadEncode_encodeOf {s : State} {i : StartInputs} (hh : s.host = []) (hc : startCheck i = none)
    (hl : i.pix.length = i.npix) : (loadEncode i s).EncodeOf i s.out :=
  ⟨hh, Nat.zero_le 61, loadEncode_phaseInv s hc hl.symm, loadEncode_onTrack i s, rfl, rfl, rfl, fun _ _ => rfl⟩

theorem State.EncodeOf.step {i : StartInputs} {m : Memory} {s t : State} (h : s.EncodeOf i m)
    (hs : Machine.step s = .next t) : t.EncodeOf i m := by
  rw [step_of_no_host h.host_eq] at hs
  obtain ⟨bs, hout, hlen, hw, hh, _, _, hpix, _, hhost⟩ := encoderStep_out hs
  exact {
    host_eq := hhost.trans h.host_eq
    run_le := encoderStep_run_le h.run_le hs
    phase_inv := encoderStep_phaseInv h.phase_inv hs
    on_track := encoderStep_onTrack h.run_le h.phase_inv h.on_track hs
    w_eq := hw.trans h.w_eq
    h_eq := hh.trans h.h_eq
    pix_eq := hpix.trans h.pix_eq
    out_beyond := fun a ha => by
      rw [hout, Memory.read_writeBytes_outside _ _ (.inr (hlen ▸ ha)), h.out_beyond a (by omega)] }

/-! ### From START to DONE -/

/-- HEADER, one step for each pixel, then the three steps after the last pixel. -/
theorem run_loadEncode {s : State} {i : StartInputs} (hh : s.host = []) (hc : startCheck i = none)
    (hl : i.pix.length = i.npix) :
    ∃ t : State, Host.Core.run core (i.npix + 4) (loadEncode i s) = .next t ∧ t.phase = .done ∧ t.EncodeOf i s.out := by
  obtain ⟨(u : State), hu, hafter⟩ := run_afterPixels hh hc hl i.npix (Nat.le_refl _)
  have hpos : u.pos = u.pixelCount := hafter.pos_eq.trans hafter.count_eq.symm
  obtain ⟨hin, -, -, hpaid⟩ := (phaseInv_pixels hafter.phase_eq).1 hafter.phase_inv
  have hcap : 5 * u.pixelCount + 22 ≤ u.cap := hin.capacity
  rw [owed_eq] at hpaid
  have hlast := run_after_last_pixel hafter.host_eq hafter.phase_eq hpos hafter.run_le (by omega)
  have hrun := (run_add_of_next hu).trans hlast
  rw [show 1 + i.npix + 3 = i.npix + 4 by omega] at hrun
  exact ⟨_, hrun, rfl, run_preserves (fun _ _ => State.EncodeOf.step) (loadEncode_encodeOf hh hc hl) hrun⟩

/-- A START that is taken is the first step of the encode. -/
theorem run_start {s : State} {i : StartInputs} (hb : s.phase.busy = false) (hh : s.host = [.start i])
    (hc : startCheck i = none) (k : Nat) :
    Host.Core.run core (1 + k) s = Host.Core.run core k (loadEncode i { s with host := [] }) := by
  have hstart := step_of_start hh hb
  rw [startEncode_of_check hc] at hstart
  exact run_add_of_next ((run_one s).trans hstart)

/-- Settles O53: at DONE the invariant gives the registers, and the track the container. -/
theorem wholeEncodeIsTheFunctionalForm : Obligations.WholeEncodeIsTheFunctionalForm := by
  intro s i hb hh hc hl
  have hnpix : i.npix = i.w.toNat * i.h.toNat := (startCheck_eq_none.1 hc).1
  obtain ⟨t, ht, hph, henc⟩ := run_loadEncode (s := { s with host := [] }) rfl hc hl
  obtain ⟨hin, -, hpos, hrun, hlen22, hlenmax⟩ := (phaseInv_done hph).1 henc.phase_inv
  obtain ⟨-, hlen, hout⟩ := (onTrack_done hph).1 henc.on_track
  have hcount : t.pixelCount = i.w.toNat * i.h.toNat := by rw [State.pixelCount, henc.w_eq, henc.h_eq]
  rw [henc.w_eq, henc.h_eq, henc.pix_eq] at hlen hout
  rw [hcount] at hpos hlenmax
  exact ⟨t, by rw [run_start hb hh hc, ← hnpix, ht], hph, hin.status_ok, hpos, hrun, hlen, hlen22, hlenmax, hout,
    henc.out_beyond⟩

/-! ### A zero width or height (44_framing.md R199) -/

/-- With no pixels the encode is HEADER and the three steps after the last pixel; PIX is not read. -/
theorem run_loadEncode_of_no_pixels {s : State} {i : StartInputs} (hh : s.host = []) (hn : i.pixelCount = 0)
    (hcap : 22 ≤ i.cap) :
    ∃ t : State, Host.Core.run core 4 (loadEncode i s) = .next t ∧ t.phase = .done ∧ t.status = .ok ∧ t.len = 22
      ∧ t.run = 0 ∧ t.out = Memory.writeBytes s.out 0 (encode (.header i.w i.h) ++ encode .footer) := by
  have hheader := step_of_header (s := loadEncode i s) hh rfl (show 0 + 14 ≤ i.cap by omega)
  have hlast := run_after_last_pixel_of_no_run
    (s := { appendOut (encode (.header i.w i.h)) (loadEncode i s) with phase := .pixels }) hh rfl hn.symm rfl hcap
  refine ⟨_, run_succ_eq_next.2 ⟨_, hheader, hlast⟩, rfl, rfl, rfl, rfl, ?_⟩
  simp only [appendOut_out, appendOut_len, loadEncode_out, loadEncode_len, Memory.writeBytes_append]

/-- Settles O57: both checks pass, since there are no pixels. -/
theorem zeroDimensionsGiveHeaderAndFooter : Obligations.ZeroDimensionsGiveHeaderAndFooter := by
  refine ⟨fun s i hb hh hwh hnpix hcap => ?_, by decide⟩
  have hn : i.pixelCount = 0 := by
    rcases hwh with h | h <;> simp [StartInputs.pixelCount, h]
  have hc : startCheck i = none := startCheck_eq_none.2 ⟨hnpix.trans hn.symm, by rw [hn]; exact hcap⟩
  obtain ⟨t, ht, hph, hstatus, hlen, hrun, hout⟩ := run_loadEncode_of_no_pixels (s := { s with host := [] }) rfl hn hcap
  refine ⟨t, (run_start hb hh hc 4).trans ht, hph, hstatus, hlen, hrun, fun k hk => ?_, fun a ha => ?_⟩
  · have hread := Memory.read_writeBytes_inside (encode (.header i.w i.h) ++ encode .footer) s.out 0 k hk
    rwa [Nat.zero_add, ← hout] at hread
  · rw [hout]
    exact Memory.read_writeBytes_outside _ _ (.inr ha)

end Sys2Proof.Machine
end

section
/-! PROOF. Errors (60_exceptions.md): the two that START raises (R211 to R217), and that a busy block in a consistent state
always has a next step (R221). -/

namespace Sys2Proof.Machine

/-! ### The two errors of START -/

theorem Phase.busy_eq_false {ph : Phase} : ph.busy = false ↔ ph = .idle ∨ ph = .done ∨ ph = .failed := by
  cases ph <;> decide

/-- The input length is checked first: with a wrong one the capacity does not matter (60_exceptions.md R217). -/
theorem startCheck_of_npix_ne {i : StartInputs} (h : i.npix ≠ i.pixelCount) : startCheck i = some .inputLength :=
  if_pos h

theorem startCheck_of_cap_lt {i : StartInputs} (hn : i.npix = i.pixelCount) (hc : i.cap < Config.capMin i.pixelCount) :
    startCheck i = some .capacity := by
  rw [startCheck, if_neg (not_not_intro hn), if_pos hc]

theorem startEncode_of_error {i : StartInputs} {e : EncodeError} (h : startCheck i = some e) (s : State) :
    startEncode i s = raiseError e s := by
  rw [startEncode, h]

/-- Settles O44: the first check that fails is raised, by the four writes of `raiseError`. -/
theorem startErrorsWriteNothingElse : Obligations.StartErrorsWriteNothingElse := by
  intro s i rest hph hh
  have hstart := step_of_start hh (Phase.busy_eq_false.2 hph)
  refine ⟨fun hn => ?_, fun hn hcap => ?_, rfl, rfl⟩
  · rw [hstart, startEncode_of_error (startCheck_of_npix_ne hn)]
    rfl
  · rw [hstart, startEncode_of_error (startCheck_of_cap_lt hn hcap)]
    rfl

/-! ### The step of a busy block, move by move -/

theorem step_of_reset {s : State} {rest : List HostMove} (hh : s.host = .reset :: rest) :
    step s = .next (hostReset { s with host := rest }) := by
  simp only [step, machineStep, hh]

theorem step_of_wait_busy {s : State} {rest : List HostMove} (hh : s.host = .wait :: rest) (hb : s.phase.busy = true) :
    step s = encoderStep { s with host := rest } := by
  simp only [step, machineStep, hh, encoderTurn, hb, if_true]

/-- A START is held while the block is busy (70_reset_and_hazards.md R243). -/
theorem step_of_start_busy {s : State} {i : StartInputs} {rest : List HostMove} (hh : s.host = .start i :: rest)
    (hb : s.phase.busy = true) : step s = encoderStep s := by
  simp only [step, machineStep, hh, hb, if_true]

/-! ### Progress (60_exceptions.md R221) -/

theorem pixelsPhase_completes {s : State} (hr : s.run.toNat ≤ 61) (hph : s.phase = .pixels) (hi : s.PhaseInv) :
    ∃ t, encoderStep s = .next t := by
  obtain ⟨hin, -⟩ := (phaseInv_pixels hph).1 hi
  rcases Nat.lt_or_eq_of_le hin.pos_le with hpos | hpos
  · rw [encoderStep_of_pixels hph hpos]
    exact pixelStep_completes hr hph hpos hi
  · exact ⟨_, encoderStep_of_pixels_end hph hpos⟩

theorem flushStep_completes {s : State} (hr : s.run.toNat ≤ 61) (hph : s.phase = .flush) (hi : s.PhaseInv) :
    ∃ t, encoderStep s = .next t := by
  obtain ⟨hin, -, hpos, -, hpaid⟩ := (phaseInv_flush hph).1 hi
  have hcap : 5 * s.pixelCount + 22 ≤ s.cap := hin.capacity
  rw [owed_eq] at hpaid
  exact ⟨_, encoderStep_of_flush_of_room hph (Nat.le_succ_of_le hr) (by omega)⟩

theorem footerStep_completes {s : State} (hph : s.phase = .footer) (hi : s.PhaseInv) : ∃ t, encoderStep s = .next t := by
  obtain ⟨hin, -, hpos, -, -, hpaid⟩ := (phaseInv_footer hph).1 hi
  have hcap : 5 * s.pixelCount + 22 ≤ s.cap := hin.capacity
  simp only [encoderStep, hph]
  exact ⟨_, exec_footer_of_room (by omega)⟩

/-- In every busy phase the invariant keeps the next read in range and room for the next bytes. -/
theorem encoderStep_completes {s : State} (hi : s.Inv) (hb : s.phase.busy = true) : ∃ t, encoderStep s = .next t := by
  cases hph : s.phase with
  | header => exact headerStep_completes hph hi.phase_inv
  | pixels => exact pixelsPhase_completes hi.run_le hph hi.phase_inv
  | flush => exact flushStep_completes hi.run_le hph hi.phase_inv
  | footer => exact footerStep_completes hph hi.phase_inv
  | idle | done | failed =>
    rw [hph] at hb
    cases hb

/-- Settles O52: a reset always has a next state; with any other move, or none, the step is the encoder's. -/
theorem busyEncoderNeverFails : Obligations.BusyEncoderNeverFails := by
  intro s hi hb
  match hh : s.host with
  | [] =>
    rw [step_of_no_host hh]
    exact encoderStep_completes hi hb
  | .reset :: rest => exact ⟨_, step_of_reset hh⟩
  | .wait :: rest =>
    rw [step_of_wait_busy hh hb]
    exact encoderStep_completes (hi.pop_host hh) hb
  | .start i :: rest =>
    rw [step_of_start_busy hh hb]
    exact encoderStep_completes hi hb

end Sys2Proof.Machine
end

section
/-! PROOF. The hazards of the encodings: the windows and their biases (70_reset_and_hazards.md R247), and the RUN field (R248). -/

namespace Sys2Proof.Machine

/-- Settles O10: the delta to an offset is the offset, and a packed byte is the sum of its biased fields. -/
theorem windowsAreClosedAndAsymmetric : Obligations.WindowsAreClosedAndAsymmetric := by
  refine ⟨fun o d hlo hhi => ?_, fun dr dg db hw => ?_, fun dg drdg dbdg hw => ?_⟩
  · have hd : -128 ≤ d ∧ d ≤ 127 := ⟨hlo, hhi⟩
    exact ⟨wrapDiff_add_ofInt o hd, wrapDiff_add_ofInt o hd, wrapDiff_add_ofInt o hd⟩
  · rw [toNat_diffByte hw]
    ring
  · obtain ⟨hg, hr, hb⟩ := Instr.wf_luma.1 hw
    refine ⟨toNat_lumaByte0 hg, ?_⟩
    rw [toNat_lumaByte1 hr hb]
    ring

/-- The field of a RUN byte is what is left of the byte above its tag (30_encoding.md R81). -/
theorem toNat_and_fieldMask (b : Byte) : (b &&& 0x3F).toNat = b.toNat % 64 := by
  rw [BitVec.toNat_and]
  exact Nat.and_two_pow_sub_one_eq_mod b.toNat 6

/-- Settles O6: a RUN byte of 1..62 is at most `0xFD`, and the bytes of 63 and 64 are the two escapes. -/
theorem runByteIsNeverAnEscape : Obligations.RunByteIsNeverAnEscape := by
  refine ⟨fun n h1 h62 => ?_, fun b c d e => ⟨decodeRecord_rgb b c d [e], decodeRecord_rgba b c d e []⟩⟩
  have hbyte := toNat_runByte (Instr.wf_run.2 ⟨h1, h62⟩)
  have hle : (runByte n).toNat ≤ 0xFD := by omega
  refine ⟨rfl, ?_, hle, ne_escapes_of_le hle⟩
  rw [toNat_and_fieldMask]
  omega

end Sys2Proof.Machine
end

section
/-! PROOF. The host's moves: the encoder's step does not look at them, so a START that comes while the block is busy is no step
(70_reset_and_hazards.md R243), and a reset needs no phase (R235). -/

namespace Sys2Proof.Machine

/-- What has appended bytes to OUT had room for them. -/
theorem AppendsOnly.room {f : State → Result} (hf : AppendsOnly f) {s t : State} (h : f s = .next t)
    (hlt : s.len < t.len) : t.len ≤ s.cap := by
  obtain ⟨bs, ha⟩ := hf s t h
  have hlen := ha.len_eq
  rw [← ha.cap_eq]
  refine ha.room.resolve_left ?_
  rintro rfl
  exact absurd hlen (Nat.ne_of_gt hlt)

/-- The PIXEL step neither reads nor writes the host's moves. -/
theorem pixelStep_of_other_host {s t : State} (h : pixelStep s = .next t) (q : List HostMove) :
    pixelStep { s with host := q } = .next { t with host := q } := by
  have hroom := pixelStep_appendsOnly.room h
  obtain ⟨p, hp, ⟨rfl, h61, rfl⟩ | ⟨rfl, h61, rfl⟩ | ⟨hne, h62, rfl⟩⟩ := pixelStep_eq_next h
  · exact pixelStep_of_run_below_cap (s := { s with host := q }) hp h61
  · exact pixelStep_at_cap_of_room (s := { s with host := q }) hp h61 (hroom (Nat.lt_succ_self s.len))
  · obtain ⟨-, hrecord, -⟩ := exec_selectRecord s.prev s.cache p s
    refine pixelStep_record_of_room (s := { s with host := q }) hp hne h62 (hroom ?_)
    simp only [commonUpdate_len, appendOut_len, List.length_append]
    omega

theorem encoderStep_of_header {s : State} (hph : s.phase = .header) : encoderStep s = exec (.header s.w s.h) s := by
  simp only [encoderStep, hph]

theorem encoderStep_of_footer {s : State} (hph : s.phase = .footer) : encoderStep s = exec .footer s := by
  simp only [encoderStep, hph]

/-- No step of the encoder reads or writes the host's moves. -/
theorem encoderStep_of_other_host {s t : State} (h : encoderStep s = .next t) (q : List HostMove) :
    encoderStep { s with host := q } = .next { t with host := q } := by
  have hroom := encoderStep_appendsOnly.room h
  rcases encoderStep_eq_next h with ⟨hph, rfl⟩ | ⟨hph, hpos, hp⟩ | ⟨hph, hpos, rfl⟩ | ⟨hph, h62, ht⟩ | ⟨hph, rfl⟩
  · rw [encoderStep_of_header (s := { s with host := q }) hph]
    exact exec_header_of_room (hroom (Nat.lt_add_of_pos_right (Nat.succ_pos 13)))
  · rw [encoderStep_of_pixels (s := { s with host := q }) hph hpos]
    exact pixelStep_of_other_host hp q
  · exact encoderStep_of_pixels_end (s := { s with host := q }) hph hpos
  · by_cases hr : s.run = 0
    · rw [encoderStep_of_flush_no_run hph hr] at h
      cases h
      exact encoderStep_of_flush_no_run (s := { s with host := q }) hph hr
    · subst ht
      have hbyte : 0 < (pendingByte s).length := by simp [pendingByte_of_run hr]
      exact encoderStep_of_flush_of_room (s := { s with host := q }) hph h62 (hroom (Nat.lt_add_of_pos_right hbyte))
  · rw [encoderStep_of_footer (s := { s with host := q }) hph]
    exact exec_footer_of_room (hroom (Nat.lt_add_of_pos_right (Nat.succ_pos 7)))

/-- Settles O45: the step is the encoder's, which does the same with the START held as with no move to come. -/
theorem noStartWhileBusy : Obligations.NoStartWhileBusy := by
  intro s t i rest hb hh
  rw [step_of_start_busy hh hb, step_of_no_host (s := { s with host := [] }) rfl, ← hh]
  constructor
  · intro h
    have ht := Host.Outcome.next.inj (h.symm.trans (encoderStep_of_other_host h s.host))
    exact ⟨_, encoderStep_of_other_host h [], ht⟩
  · rintro ⟨u, hu, rfl⟩
    exact encoderStep_of_other_host hu s.host

/-- Settles O46: the reset is the first move of the queue, so the phase is not looked at. -/
theorem resetFromAnyPhase : Obligations.ResetFromAnyPhase :=
  fun _ _ hh => ⟨_, step_of_reset hh, rfl, rfl, rfl, rfl, rfl, rfl⟩

end Sys2Proof.Machine
end
